-- ==== Sys2Proof/Word.lean ====
section
/-! DEFINITION. The machine's word types (00_scope.md R5, R9; 10_state.md R21, R30; 30_encoding.md R70, R71) and the
plain data that holds instruction memory (20_memory.md R50). -/

namespace Sys2Proof

/-- An 8-bit pattern: a register, the immediate, the PC, the exit code (00_scope.md R9, R5 `XLEN`). -/
abbrev Byte := BitVec 8

/-- One instruction word, bits 24 to 0 (30_encoding.md R70, 00_scope.md R5 `ILEN`). -/
abbrev InsWord := BitVec 25

/-- A register number of an instruction field, 0 to 15 (10_state.md R21, 30_encoding.md R74). -/
abbrev RegNum := BitVec 4

/-- The opcode field `ins<24:20>` (30_encoding.md R71). -/
abbrev Opcode := BitVec 5

/-- Instruction memory as data: word address and 25-bit word (20_memory.md R50, R54). An address that is not listed reads
`Config.unlistedWord`. DESIGN CHOICE (log 2): the cell is the spec's smallest addressable unit, a 25-bit word, not a byte. -/
abbrev Memory := List (Nat × InsWord)

end Sys2Proof
end

