-- ==== Sys2Proof/Machine/Flags.lean ====
section
/-! DEFINITION. The machine has no flags (10_state.md R39): a comparison writes 1 or 0 to a register and a branch tests bit 0
of a register. These are the two condition computations, and the results of the arithmetic and logic units
(40_alu_register.md R100 to R106), none of which leaves a carry, overflow or zero flag anywhere. -/

namespace Sys2Proof.Machine

/-- `Compare(a, b)`: 1 if the two patterns are the same, else 0 (40_alu_register.md R104). -/
def compareResult (a b : Byte) : Byte := if a = b then 1#8 else 0#8

/-- `v<0>`, the bit the branches test (42_branch.md R140, R141; 00_scope.md R8). -/
def bitZero (v : Byte) : Bool := v.getLsbD 0

/-- `a | b` (R100). -/
def orResult (a b : Byte) : Byte := a ||| b

/-- `a & b` (R102). -/
def andResult (a b : Byte) : Byte := a &&& b

/-- `~b` (R103). -/
def notResult (b : Byte) : Byte := ~~~b

/-- `(a + b) mod 256`, the carry lost (R105, R101). -/
def addResult (a b : Byte) : Byte := a + b

/-- `(a + (~b) + 1) mod 256`, the borrow lost (R106, R101). -/
def subResult (a b : Byte) : Byte := a + ~~~b + 1#8

end Sys2Proof.Machine
end

