-- ==== Sys2Proof/Syntax.lean ====
section
/-! DEFINITION. The instructions: one constructor per row of spec/opcode_table.json (30_encoding.md R76, R88, R90), and the
two ways a word can fail to be one (R80). -/

namespace Sys2Proof

/-- The instructions, in the table's order; the operands in the assembler's order, destination first (30_encoding.md R88).
The last three are the pseudo-instructions, assembler spellings the decoder never reports (R90, 46_pseudo.md R183; log 8). -/
inductive Instr where
  /-- OR, 40_alu_register.md R100. -/
  | or (rw ra rb : RegNum)
  /-- AND, R102. -/
  | and (rw ra rb : RegNum)
  /-- NOT, R103. -/
  | not (rw rb : RegNum)
  /-- CMP, R104. -/
  | cmp (rw ra rb : RegNum)
  /-- ADD, R105. -/
  | add (rw ra rb : RegNum)
  /-- SUB, R106. -/
  | sub (rw ra rb : RegNum)
  /-- ORI, 41_alu_immediate.md R120. -/
  | ori (rw ra : RegNum) (imm : Byte)
  /-- ANDI, R122. -/
  | andi (rw ra : RegNum) (imm : Byte)
  /-- NOTI, R125. -/
  | noti (rw : RegNum) (imm : Byte)
  /-- CMPI, R124. -/
  | cmpi (rw ra : RegNum) (imm : Byte)
  /-- ADDI, R126. -/
  | addi (rw ra : RegNum) (imm : Byte)
  /-- SUBI, R127. -/
  | subi (rw ra : RegNum) (imm : Byte)
  /-- BRZ, 42_branch.md R140; `dest` is dest-PC, the imm field. -/
  | brz (rb : RegNum) (dest : Byte)
  /-- BRO, R141. -/
  | bro (rb : RegNum) (dest : Byte)
  /-- MFLO, 43_move_from.md R150. -/
  | mflo (rw : RegNum)
  /-- MFHI, R151. -/
  | mfhi (rw : RegNum)
  /-- LD, 44_load_store.md R160; `rest` is `ins<19:0>`, whose fields are not described (R161). -/
  | ld (rest : BitVec 20)
  /-- ST, R160; `rest` as for LD. -/
  | st (rest : BitVec 20)
  /-- HALT, 45_halt.md R170; `code` is the exit code, the imm field. -/
  | halt (code : Byte)
  /-- LI (pseudo), 46_pseudo.md R180. -/
  | li (rw : RegNum) (imm : Byte)
  /-- NOP (pseudo), R181. -/
  | nop
  /-- BR (pseudo), R182. -/
  | br (dest : Byte)
deriving DecidableEq, Repr

/-- Why a word is no instruction (30_encoding.md R80). -/
inductive DecodeReject where
  /-- The opcode's cell of the map is blank (R83). -/
  | illegal
  /-- The opcode is assigned and a field drawn as 0 is not 0, or an MF selector is not 0 or 1 (R81, R84). -/
  | reserved
deriving DecidableEq, Repr

/-- The machine instruction an assembler spelling stands for (46_pseudo.md R180 to R183); a machine instruction stands for
itself. -/
def Instr.expand : Instr → Instr
  | .or rw ra rb => .or rw ra rb
  | .and rw ra rb => .and rw ra rb
  | .not rw rb => .not rw rb
  | .cmp rw ra rb => .cmp rw ra rb
  | .add rw ra rb => .add rw ra rb
  | .sub rw ra rb => .sub rw ra rb
  | .ori rw ra imm => .ori rw ra imm
  | .andi rw ra imm => .andi rw ra imm
  | .noti rw imm => .noti rw imm
  | .cmpi rw ra imm => .cmpi rw ra imm
  | .addi rw ra imm => .addi rw ra imm
  | .subi rw ra imm => .subi rw ra imm
  | .brz rb dest => .brz rb dest
  | .bro rb dest => .bro rb dest
  | .mflo rw => .mflo rw
  | .mfhi rw => .mfhi rw
  | .ld rest => .ld rest
  | .st rest => .st rest
  | .halt code => .halt code
  | .li rw imm => .ori rw 0#4 imm
  | .nop => .or 0#4 0#4 0#4
  | .br dest => .brz 0#4 dest

/-- The four kinds of instruction that 10_state.md R31 and R36 and 00_scope.md R11 tell apart. -/
inductive InstrKind where
  /-- Writes its result to `x[rw]` (10_state.md R24). -/
  | writer (rw : RegNum)
  /-- BRZ, BRO and BR. -/
  | branch
  /-- HALT. -/
  | halt
  /-- LD and ST, named only. -/
  | loadStore
deriving DecidableEq, Repr

/-- The kind of each instruction (10_state.md R24, R31). -/
def Instr.kind : Instr → InstrKind
  | .or rw _ _ => .writer rw
  | .and rw _ _ => .writer rw
  | .not rw _ => .writer rw
  | .cmp rw _ _ => .writer rw
  | .add rw _ _ => .writer rw
  | .sub rw _ _ => .writer rw
  | .ori rw _ _ => .writer rw
  | .andi rw _ _ => .writer rw
  | .noti rw _ => .writer rw
  | .cmpi rw _ _ => .writer rw
  | .addi rw _ _ => .writer rw
  | .subi rw _ _ => .writer rw
  | .brz _ _ => .branch
  | .bro _ _ => .branch
  | .mflo rw => .writer rw
  | .mfhi rw => .writer rw
  | .ld _ => .loadStore
  | .st _ => .loadStore
  | .halt _ => .halt
  | .li rw _ => .writer rw
  | .nop => .writer 0#4
  | .br _ => .branch

end Sys2Proof
end

