-- ==== Sys2Proof/WellFormed.lean ====
section
/-! DEFINITION. Which terms of `Instr` are instructions of the machine. The fields' types hold exactly the values the
encoding has bits for (30_encoding.md R71), so no range is left to check; what is left is R90 and 46_pseudo.md R183: LI, NOP
and BR are spellings of the assembler and no word decodes to them. -/

namespace Sys2Proof

/-- A machine instruction: one that some word decodes to (30_encoding.md R90). -/
def Instr.wellFormed : Instr → Bool
  | .or _ _ _ => true
  | .and _ _ _ => true
  | .not _ _ => true
  | .cmp _ _ _ => true
  | .add _ _ _ => true
  | .sub _ _ _ => true
  | .ori _ _ _ => true
  | .andi _ _ _ => true
  | .noti _ _ => true
  | .cmpi _ _ _ => true
  | .addi _ _ _ => true
  | .subi _ _ _ => true
  | .brz _ _ => true
  | .bro _ _ => true
  | .mflo _ => true
  | .mfhi _ => true
  | .ld _ => true
  | .st _ => true
  | .halt _ => true
  | .li _ _ => false
  | .nop => false
  | .br _ => false

end Sys2Proof
end

