-- ==== Sys2Proof/Decode.lean ====
section
/-! DEFINITION. The decoder (30_encoding.md R80 to R85), total on 25-bit words, and the encoder (R71, R72, R76). -/

namespace Sys2Proof

/-! The five fields of a word (30_encoding.md R71). -/

/-- opcode, `ins<24:20>`. -/
def opcodeOf (w : InsWord) : Opcode := w.extractLsb' 20 5
/-- rw, `ins<19:16>`. -/
def rwOf (w : InsWord) : RegNum := w.extractLsb' 16 4
/-- ra, `ins<15:12>`. -/
def raOf (w : InsWord) : RegNum := w.extractLsb' 12 4
/-- rb, `ins<11:8>`. -/
def rbOf (w : InsWord) : RegNum := w.extractLsb' 8 4
/-- imm, `ins<7:0>`. -/
def immOf (w : InsWord) : Byte := w.extractLsb' 0 8
/-- Everything below the opcode, `ins<19:0>`: the undescribed part of LD and ST (R72 shape U). -/
def restOf (w : InsWord) : BitVec 20 := w.extractLsb' 0 20

/-! The shapes of 30_encoding.md R72, each with the fields its figure draws as 0 (R81). -/

/-- The instruction `i` when the fields drawn as 0 are 0, else `reserved` (R81). -/
def whenZero (zero : Bool) (i : Instr) : Except DecodeReject Instr :=
  if zero then .ok i else .error .reserved

/-- Shape R: imm = 0. -/
def shapeR (mk : RegNum → RegNum → RegNum → Instr) (w : InsWord) : Except DecodeReject Instr :=
  whenZero (immOf w == 0#8) (mk (rwOf w) (raOf w) (rbOf w))
/-- Shape R2: ra = 0, imm = 0. -/
def shapeR2 (mk : RegNum → RegNum → Instr) (w : InsWord) : Except DecodeReject Instr :=
  whenZero (raOf w == 0#4 && immOf w == 0#8) (mk (rwOf w) (rbOf w))
/-- Shape I: rb = 0. -/
def shapeI (mk : RegNum → RegNum → Byte → Instr) (w : InsWord) : Except DecodeReject Instr :=
  whenZero (rbOf w == 0#4) (mk (rwOf w) (raOf w) (immOf w))
/-- Shape I1: ra = 0, rb = 0. -/
def shapeI1 (mk : RegNum → Byte → Instr) (w : InsWord) : Except DecodeReject Instr :=
  whenZero (raOf w == 0#4 && rbOf w == 0#4) (mk (rwOf w) (immOf w))
/-- Shape B: rw = 0, ra = 0. -/
def shapeB (mk : RegNum → Byte → Instr) (w : InsWord) : Except DecodeReject Instr :=
  whenZero (rwOf w == 0#4 && raOf w == 0#4) (mk (rbOf w) (immOf w))
/-- Shape M: ra = 0, rb = 0, and the immediate selects Lo (0) or Hi (1) and nothing else (R84, 43_move_from.md R152). -/
def shapeM (w : InsWord) : Except DecodeReject Instr :=
  if immOf w = 0#8 then whenZero (raOf w == 0#4 && rbOf w == 0#4) (.mflo (rwOf w))
  else if immOf w = 1#8 then whenZero (raOf w == 0#4 && rbOf w == 0#4) (.mfhi (rwOf w))
  else .error .reserved
/-- Shape H: rw = 0, ra = 0, rb = 0. -/
def shapeH (mk : Byte → Instr) (w : InsWord) : Except DecodeReject Instr :=
  whenZero (rwOf w == 0#4 && raOf w == 0#4 && rbOf w == 0#4) (mk (immOf w))

/-- The decoder: the opcode first, then the fields drawn as 0 (30_encoding.md R80). The cells are those of the opcode map
(R75, R76); LD and ST are known by opcode alone (R85); every opcode not listed is a blank cell (R83). -/
def decode (w : InsWord) : Except DecodeReject Instr :=
  match opcodeOf w with
  | 0b00000#5 => shapeR .or w
  | 0b00001#5 => shapeR .and w
  | 0b00011#5 => shapeR2 .not w
  | 0b00100#5 => shapeR .cmp w
  | 0b00110#5 => shapeR .add w
  | 0b00111#5 => shapeR .sub w
  | 0b01000#5 => shapeI .ori w
  | 0b01001#5 => shapeI .andi w
  | 0b01011#5 => shapeI1 .noti w
  | 0b01100#5 => shapeI .cmpi w
  | 0b01110#5 => shapeI .addi w
  | 0b01111#5 => shapeI .subi w
  | 0b10000#5 => shapeB .brz w
  | 0b10001#5 => shapeB .bro w
  | 0b10010#5 => shapeM w
  | 0b11000#5 => .ok (.ld (restOf w))
  | 0b11001#5 => .ok (.st (restOf w))
  | 0b11111#5 => shapeH .halt w
  | _ => .error .illegal

/-- A word from its five fields, bit 24 first (30_encoding.md R71). -/
def pack (op : Opcode) (rw ra rb : RegNum) (imm : Byte) : InsWord :=
  op ++ rw ++ ra ++ rb ++ imm

/-- The word of an instruction, field by field from the figures (30_encoding.md R72, R76, R88); a pseudo-instruction has the
word of its expansion (46_pseudo.md R180 to R182). -/
def encode : Instr → InsWord
  | .or rw ra rb => pack 0b00000#5 rw ra rb 0#8
  | .and rw ra rb => pack 0b00001#5 rw ra rb 0#8
  | .not rw rb => pack 0b00011#5 rw 0#4 rb 0#8
  | .cmp rw ra rb => pack 0b00100#5 rw ra rb 0#8
  | .add rw ra rb => pack 0b00110#5 rw ra rb 0#8
  | .sub rw ra rb => pack 0b00111#5 rw ra rb 0#8
  | .ori rw ra imm => pack 0b01000#5 rw ra 0#4 imm
  | .andi rw ra imm => pack 0b01001#5 rw ra 0#4 imm
  | .noti rw imm => pack 0b01011#5 rw 0#4 0#4 imm
  | .cmpi rw ra imm => pack 0b01100#5 rw ra 0#4 imm
  | .addi rw ra imm => pack 0b01110#5 rw ra 0#4 imm
  | .subi rw ra imm => pack 0b01111#5 rw ra 0#4 imm
  | .brz rb dest => pack 0b10000#5 0#4 0#4 rb dest
  | .bro rb dest => pack 0b10001#5 0#4 0#4 rb dest
  | .mflo rw => pack 0b10010#5 rw 0#4 0#4 0#8
  | .mfhi rw => pack 0b10010#5 rw 0#4 0#4 1#8
  | .ld rest => 0b11000#5 ++ rest
  | .st rest => 0b11001#5 ++ rest
  | .halt code => pack 0b11111#5 0#4 0#4 0#4 code
  | .li rw imm => pack 0b01000#5 rw 0#4 0#4 imm
  | .nop => 0#25
  | .br dest => pack 0b10000#5 0#4 0#4 0#4 dest

/-- The match and the mask of each row of 30_encoding.md R82 (46_pseudo.md R180 to R182 for the pseudo rows): `w` is an
instruction of the row when `w &&& mask = match`. The decoder does not use it; the claims hold the decoder against it. -/
def Instr.matchMask : Instr → InsWord × InsWord
  | .or _ _ _ => (0x0000000#25, 0x1F000FF#25)
  | .and _ _ _ => (0x0100000#25, 0x1F000FF#25)
  | .not _ _ => (0x0300000#25, 0x1F0F0FF#25)
  | .cmp _ _ _ => (0x0400000#25, 0x1F000FF#25)
  | .add _ _ _ => (0x0600000#25, 0x1F000FF#25)
  | .sub _ _ _ => (0x0700000#25, 0x1F000FF#25)
  | .ori _ _ _ => (0x0800000#25, 0x1F00F00#25)
  | .andi _ _ _ => (0x0900000#25, 0x1F00F00#25)
  | .noti _ _ => (0x0B00000#25, 0x1F0FF00#25)
  | .cmpi _ _ _ => (0x0C00000#25, 0x1F00F00#25)
  | .addi _ _ _ => (0x0E00000#25, 0x1F00F00#25)
  | .subi _ _ _ => (0x0F00000#25, 0x1F00F00#25)
  | .brz _ _ => (0x1000000#25, 0x1FFF000#25)
  | .bro _ _ => (0x1100000#25, 0x1FFF000#25)
  | .mflo _ => (0x1200000#25, 0x1F0FFFF#25)
  | .mfhi _ => (0x1200001#25, 0x1F0FFFF#25)
  | .ld _ => (0x1800000#25, 0x1F00000#25)
  | .st _ => (0x1900000#25, 0x1F00000#25)
  | .halt _ => (0x1F00000#25, 0x1FFFF00#25)
  | .li _ _ => (0x0800000#25, 0x1F0FF00#25)
  | .nop => (0x0000000#25, 0x1FFFFFF#25)
  | .br _ => (0x1000000#25, 0x1FFFF00#25)

/-- The instruction word the host's number `w` of `nbits` bits stands for, if it is one: a word has 25 bits
(30_encoding.md R70), so a number with a bit above bit 24 is no word (log 9). -/
def tableWord (nbits w : Nat) : Option InsWord :=
  let v := w % 2 ^ nbits
  if v < 2 ^ 25 then some (BitVec.ofNat 25 v) else none

/-- What the decoder reads from an instruction whose bits are `w`, numbered as spec/opcode_table.json numbers them. -/
def decodeTableWord (nbits w : Nat) : Option Instr :=
  match tableWord nbits w with
  | some v => (decode v).toOption
  | none => none

end Sys2Proof
end

