-- ==== Sys2Proof/Config.lean ====
section
/-! DEFINITION. What is fixed for one machine: the `OPEN` parameters of 92_eei_decisions.md (00_scope.md R6, 10_state.md
R41) and the values this model names for them. The spec leaves no instruction result open, so no free value stands here. -/

namespace Sys2Proof

/-- What an address of instruction memory that is not listed reads as. DESIGN CHOICE (log 3, unsafe): the spec leaves the
contents beyond the loaded program open (93_implementation_defined.md U11); its own examples take 0x0000000. -/
def Config.unlistedWord : InsWord := 0#25

/-- The number of words of instruction memory (20_memory.md R50; the spec's decision D4). -/
def Config.imemWords : Nat := 256

/-- The parameters the spec leaves open (92_eei_decisions.md, "Parameters left open"): the program and whatever else the
loader put in `imem`, `x[1]` to `x[15]` after reset, and `lo` and `hi`. -/
structure Params where
  /-- `imem`, D4. -/
  imem : Memory
  /-- `rf_init`: `x[1]` to `x[15]` in order, D5. -/
  rfInit : Vector Byte 15
  /-- `lo_init`, D5 and D20. -/
  loInit : Byte
  /-- `hi_init`, D5 and D20. -/
  hiInit : Byte
deriving DecidableEq, Repr

/-- The values the model names for the one `State.reset`. DESIGN CHOICE (log 4 and log 5, unsafe): the spec allows any
values; nothing is loaded in `imem` (log 7). -/
def Config.params : Params :=
  { imem := [], rfInit := Vector.replicate 15 0#8, loInit := 0#8, hiInit := 0#8 }

end Sys2Proof
end

