-- ==== Sys2Proof/Machine/State.lean ====
section
/-! DEFINITION. The state of the machine (10_state.md R20), the ways a step can stop (60_exceptions.md R203), and the state
after reset (10_state.md R41). -/

namespace Sys2Proof.Machine

/-- The delay-slot state (10_state.md R35). -/
inductive Slot where
  /-- The previous instruction was not a branch. -/
  | none
  /-- The previous instruction was a BRZ or BRO whose condition failed. -/
  | fall
  /-- The previous instruction was a BRZ or BRO whose condition held and whose imm field was `t`. -/
  | take (t : Byte)
deriving DecidableEq, Repr

/-- Everything the spec gives the machine (10_state.md R20), and the instruction memory (20_memory.md R50; log 1). -/
structure State where
  /-- `x[1]` to `x[15]` in order. Entry 0 has no storage (R22, 90_conflicts.md C7; log 12). -/
  x : Vector Byte 15
  /-- Register file entry 16 (R26). -/
  lo : Byte
  /-- Register file entry 17 (R26). -/
  hi : Byte
  /-- The word address of the instruction the current step executes (R30). -/
  pc : Byte
  /-- The delay-slot state (R35). -/
  slot : Slot
  /-- `none`, or the exit code once HALT has executed (R37). -/
  halted : Option Byte
  /-- Instruction memory, 256 words of 25 bits, read only to the machine (20_memory.md R50 to R52). -/
  imem : Memory
deriving DecidableEq, Repr

/-- The machine's own stop. -/
inductive Fault where
  /-- Raised by `step`, never by `exec`: HALT has executed and the processor has no further step (10_state.md R37,
  45_halt.md R171; log 10). Safe: nothing is claimed of a step that does not exist. -/
  | halted (code : Byte)
deriving DecidableEq, Repr

/-- The reasons the model gives a step no meaning: the closed list of 60_exceptions.md R203, all safe ("toward
unprovable"), and the host's `notModelled`, which no arm of this model uses. -/
inductive Refusal where
  /-- An instruction that has no meaning yet. Safe. Raised by no arm. -/
  | notModelled (mnemonic : String)
  /-- `illegal_opcode`: the opcode is one of the 14 blank cells (30_encoding.md R83, D7). Safe. Raised by the fetch. -/
  | illegalOpcode
  /-- `reserved_encoding`: a field drawn as 0 is not 0, or an MF selector is not 0 or 1 (R81, R84, D6, D9). Safe. Raised by
  the fetch. -/
  | reservedEncoding
  /-- `load_store_not_described`: LD or ST (44_load_store.md R162, D8). Safe. -/
  | loadStoreNotDescribed
  /-- `branch_in_delay_slot`: BRZ, BRO or BR while `slot` is not `none` (42_branch.md R144, D10). Safe. -/
  | branchInDelaySlot
  /-- `pc_past_end`: the instruction is at address 255 and the next address needed is 256 (10_state.md R32, D3). Safe.
  Raised by every instruction but HALT, LD and ST. -/
  | pcPastEnd
deriving DecidableEq, Repr

/-- What a meaning answers. -/
abbrev StepResult := Host.Outcome State Fault Refusal

/-- The state after reset for given values of the parameters the spec leaves open (10_state.md R41, 70_reset_and_hazards.md
R230, R231): `pc` 0, `slot` none, `halted` none, the rest any values. -/
def State.ofParams (p : Params) : State :=
  { x := p.rfInit, lo := p.loInit, hi := p.hiInit, pc := 0#8, slot := .none, halted := none, imem := p.imem }

/-- The one reset state the host runs from: `State.ofParams` at the values the log names (log 3, log 4, log 5). -/
def State.reset : State := State.ofParams Config.params

end Sys2Proof.Machine
end

