-- ==== Sys2Proof/Machine/Ops.lean ====
section
/-! DEFINITION. The named operations of 00_scope.md R10 over registers, PC, slot and instruction memory, and the shared ends
of a step (R11). The spec gives the machine no exception, no trap entry and no trap return (60_exceptions.md R200, R206,
R207), so no operation takes or returns from one. -/

namespace Sys2Proof.Machine

/-! ### Instruction memory (20_memory.md R50, R51) -/

/-- The word at an address; an unlisted address reads `Config.unlistedWord` (log 3). -/
def memRead : Memory → Nat → InsWord
  | [], _ => Config.unlistedWord
  | (b, w) :: m, a => if a = b then w else memRead m a

/-- Put a word at an address, the list kept sorted by address. -/
def memInsert : Memory → Nat → InsWord → Memory
  | [], a, v => [(a, v)]
  | (b, w) :: m, a, v =>
    if a < b then (a, v) :: (b, w) :: m
    else if a = b then (a, v) :: m
    else (b, w) :: memInsert m a v

/-- Take an address out of the list. -/
def memErase : Memory → Nat → Memory
  | [], _ => []
  | (b, w) :: m, a => if a = b then m else (b, w) :: memErase m a

/-- The loader's write of one word: the word an unlisted address reads as is not listed, so the form stays canonical.
No instruction writes instruction memory (20_memory.md R52); only the host's load uses this. -/
def memWrite (m : Memory) (a : Nat) (v : InsWord) : Memory :=
  if v = Config.unlistedWord then memErase m a else memInsert m a v

/-- The canonical form from the lower bound `lo` on: addresses rise strictly and lie below 256, and no entry says what an
unlisted address says anyway. -/
def memWfFrom : Nat → Memory → Bool
  | _, [] => true
  | lo, (a, v) :: m => decide (lo ≤ a) && decide (a < Config.imemWords) && decide (v ≠ Config.unlistedWord) && memWfFrom (a + 1) m

/-- Instruction memory is in canonical form. -/
def Memory.wf (m : Memory) : Bool := memWfFrom 0 m

/-- `IFetch(a)`: total, no side effect (20_memory.md R51). -/
def State.ifetch (s : State) (a : Byte) : InsWord := memRead s.imem a.toNat

/-- The host's load of one word before a run (60_exceptions.md R218). -/
def State.loadWord (s : State) (a : Byte) (v : InsWord) : State := { s with imem := memWrite s.imem a.toNat v }

/-! ### Registers, PC and slot (00_scope.md R10) -/

/-- `x[r]`: entry 0 reads 0 (10_state.md R22). -/
def State.readReg (s : State) (r : RegNum) : Byte :=
  if h : r = 0#4 then 0#8 else s.x[r.toNat - 1]'(by have := r.isLt; have : r.toNat ≠ 0 := fun e => h (BitVec.eq_of_toNat_eq e); omega)

/-- `x[r] <- v`: a write to entry 0 is ignored (10_state.md R22). -/
def State.writeReg (s : State) (r : RegNum) (v : Byte) : State :=
  if r = 0#4 then s else { s with x := s.x.setIfInBounds (r.toNat - 1) v }

/-- `pc <- a`. -/
def State.setPc (s : State) (a : Byte) : State := { s with pc := a }

/-- `slot <- v`. -/
def State.setSlot (s : State) (v : Slot) : State := { s with slot := v }

/-- `halted <- some(code)` (45_halt.md R170). -/
def State.setHalted (s : State) (code : Byte) : State := { s with halted := some code }

/-! ### The end of a step (00_scope.md R11) -/

/-- The next address in sequence, `pc + 1`; none at address 255 (10_state.md R32). -/
def State.seqPc (s : State) : Option Byte := if s.pc = 255#8 then none else some (s.pc + 1#8)

/-- The next address: the target of a branch taken one instruction ago, else the next in sequence (00_scope.md R11). -/
def State.nextPc (s : State) : Option Byte :=
  match s.slot with
  | .take t => some t
  | .none => s.seqPc
  | .fall => s.seqPc

/-- The end of an instruction that writes `v` to `x[rw]`: the refusal first, then the register, `pc` and `slot`
(00_scope.md R11, 10_state.md R31, R36). -/
def writeBack (rw : RegNum) (v : Byte) (s : State) : StepResult :=
  match s.nextPc with
  | none => .refused .pcPastEnd
  | some n => .next (((s.writeReg rw v).setPc n).setSlot .none)

/-- The end of a branch: refused in a delay slot, then at address 255; else the delay slot comes next and `slot` remembers
the outcome (42_branch.md R140, R141, R144; 60_exceptions.md R205). -/
def branchTo (taken : Bool) (dest : Byte) (s : State) : StepResult :=
  match s.slot with
  | .none =>
    match s.seqPc with
    | none => .refused .pcPastEnd
    | some n => .next ((s.setPc n).setSlot (if taken then .take dest else .fall))
  | .fall => .refused .branchInDelaySlot
  | .take _ => .refused .branchInDelaySlot

/-! ### The start of a step (00_scope.md R11) -/

/-- A halted processor has no step (45_halt.md R171). -/
def State.stopped (s : State) : Option Fault := s.halted.map Fault.halted

/-- The refusal of a word that is no instruction (30_encoding.md R81, R83, R84). -/
def rejectRefusal : DecodeReject → Refusal
  | .illegal => .illegalOpcode
  | .reserved => .reservedEncoding

/-- Fetch the word at `pc` and decode it (20_memory.md R51, 30_encoding.md R80). -/
def State.fetchInstr (s : State) : Except Refusal Instr := (decode (s.ifetch s.pc)).mapError rejectRefusal

end Sys2Proof.Machine
end

