-- ==== Sys2Proof/Machine/Operands.lean ====
section
/-! DEFINITION. The operand forms (30_encoding.md R73, R74; 10_state.md R24): a register through port A, a register through
port B, the immediate, and the two extra entries Lo and Hi through port B. There is no memory operand and no addressing
mode (R74). -/

namespace Sys2Proof.Machine

/-- Port A: `x[ra]` (10_state.md R24). -/
def State.portA (s : State) (ra : RegNum) : Byte := s.readReg ra

/-- What stands on port B or takes its place (30_encoding.md R73, 10_state.md R24, R26). -/
inductive OperandB where
  /-- `x[rb]`. -/
  | reg (rb : RegNum)
  /-- The immediate, as it stands (R73, 41_alu_immediate.md R121). -/
  | imm (v : Byte)
  /-- Entry 16, read by MFLO. -/
  | lo
  /-- Entry 17, read by MFHI. -/
  | hi
deriving DecidableEq, Repr

/-- The value of a B operand. -/
def State.portB (s : State) : OperandB → Byte
  | .reg rb => s.readReg rb
  | .imm v => v
  | .lo => s.lo
  | .hi => s.hi

end Sys2Proof.Machine
end

