-- ==== Sys2Proof/Machine/AluImmediate.lean ====
section
/-! DEFINITION. Row 01 of the opcode map: ORI, ANDI, NOTI, CMPI, ADDI, SUBI (41_alu_immediate.md): the immediate in the place
of `RF[rb]` (R121). -/

namespace Sys2Proof.Machine

/-- ORI (R120). -/
def execOri (rw ra : RegNum) (imm : Byte) (s : State) : StepResult := writeBack rw (orResult (s.portA ra) (s.portB (.imm imm))) s

/-- ANDI (R122). -/
def execAndi (rw ra : RegNum) (imm : Byte) (s : State) : StepResult := writeBack rw (andResult (s.portA ra) (s.portB (.imm imm))) s

/-- NOTI (R125): no register is read. -/
def execNoti (rw : RegNum) (imm : Byte) (s : State) : StepResult := writeBack rw (notResult (s.portB (.imm imm))) s

/-- CMPI (R124). -/
def execCmpi (rw ra : RegNum) (imm : Byte) (s : State) : StepResult := writeBack rw (compareResult (s.portA ra) (s.portB (.imm imm))) s

/-- ADDI (R126). -/
def execAddi (rw ra : RegNum) (imm : Byte) (s : State) : StepResult := writeBack rw (addResult (s.portA ra) (s.portB (.imm imm))) s

/-- SUBI (R127; the minuend is ra, 90_conflicts.md C3). -/
def execSubi (rw ra : RegNum) (imm : Byte) (s : State) : StepResult := writeBack rw (subResult (s.portA ra) (s.portB (.imm imm))) s

end Sys2Proof.Machine
end

