-- ==== Sys2Proof/Machine/AluRegister.lean ====
section
/-! DEFINITION. Row 00 of the opcode map: OR, AND, NOT, CMP, ADD, SUB (40_alu_register.md). The sources are read before the
destination is written (10_state.md R25). -/

namespace Sys2Proof.Machine

/-- OR (R100). -/
def execOr (rw ra rb : RegNum) (s : State) : StepResult := writeBack rw (orResult (s.portA ra) (s.portB (.reg rb))) s

/-- AND (R102). -/
def execAnd (rw ra rb : RegNum) (s : State) : StepResult := writeBack rw (andResult (s.portA ra) (s.portB (.reg rb))) s

/-- NOT (R103): the source is rb. -/
def execNot (rw rb : RegNum) (s : State) : StepResult := writeBack rw (notResult (s.portB (.reg rb))) s

/-- CMP (R104). -/
def execCmp (rw ra rb : RegNum) (s : State) : StepResult := writeBack rw (compareResult (s.portA ra) (s.portB (.reg rb))) s

/-- ADD (R105). -/
def execAdd (rw ra rb : RegNum) (s : State) : StepResult := writeBack rw (addResult (s.portA ra) (s.portB (.reg rb))) s

/-- SUB (R106): ra is the minuend, rb the subtrahend. -/
def execSub (rw ra rb : RegNum) (s : State) : StepResult := writeBack rw (subResult (s.portA ra) (s.portB (.reg rb))) s

end Sys2Proof.Machine
end

