-- ==== Sys2Proof/Machine/Branch.lean ====
section
/-! DEFINITION. Row 10 of the opcode map: BRZ and BRO (42_branch.md). The condition is read when the branch executes (R142). -/

namespace Sys2Proof.Machine

/-- BRZ (R140; 90_conflicts.md C1): taken when bit 0 of `x[rb]` is 0. -/
def execBrz (rb : RegNum) (dest : Byte) (s : State) : StepResult := branchTo (!bitZero (s.portB (.reg rb))) dest s

/-- BRO (R141): taken when bit 0 of `x[rb]` is 1. -/
def execBro (rb : RegNum) (dest : Byte) (s : State) : StepResult := branchTo (bitZero (s.portB (.reg rb))) dest s

end Sys2Proof.Machine
end

