-- ==== Sys2Proof/Machine/Halt.lean ====
section
/-! DEFINITION. HALT (45_halt.md R170). -/

namespace Sys2Proof.Machine

/-- HALT: `halted <- some(code)`; `pc`, `slot` and every register keep their values (R170; in a delay slot too, 42_branch.md
R145; at address 255 too, 10_state.md R32; log 11). -/
def execHalt (code : Byte) (s : State) : StepResult := .next (s.setHalted code)

end Sys2Proof.Machine
end

