-- ==== Sys2Proof/Machine/LoadStore.lean ====
section
/-! DEFINITION. LD and ST, named in the opcode map and described nowhere (44_load_store.md). "The model refuses LD and ST"
(R162); "A reader must not assume any of these" (R161). -/

namespace Sys2Proof.Machine

/-- LD: refused whatever its other fields (R162, 30_encoding.md R85), before any other check (60_exceptions.md R205). -/
def execLd (_rest : BitVec 20) (_s : State) : StepResult := .refused .loadStoreNotDescribed

/-- ST: refused whatever its other fields (R162). -/
def execSt (_rest : BitVec 20) (_s : State) : StepResult := .refused .loadStoreNotDescribed

end Sys2Proof.Machine
end

