-- ==== Sys2Proof/Machine/MoveFrom.lean ====
section
/-! DEFINITION. The cell MF of the opcode map: MFLO and MFHI (43_move_from.md, R152). -/

namespace Sys2Proof.Machine

/-- MFLO (R150). -/
def execMflo (rw : RegNum) (s : State) : StepResult := writeBack rw (s.portB .lo) s

/-- MFHI (R151). -/
def execMfhi (rw : RegNum) (s : State) : StepResult := writeBack rw (s.portB .hi) s

end Sys2Proof.Machine
end

