-- ==== Sys2Proof/Machine/Pseudo.lean ====
section
/-! DEFINITION. The pseudo-instructions LI, NOP and BR (46_pseudo.md): "its meaning is the meaning of the machine
instruction it expands to, by that instruction's rule" (R183). The decoder never reports them (30_encoding.md R90). -/

namespace Sys2Proof.Machine

/-- LI rw, imm is ORI rw, r0, imm (R180). -/
def execLi (rw : RegNum) (imm : Byte) (s : State) : StepResult := execOri rw 0#4 imm s

/-- NOP is OR r0, r0, r0 (R181). -/
def execNop (s : State) : StepResult := execOr 0#4 0#4 0#4 s

/-- BR dest is BRZ r0, dest (R182). -/
def execBr (dest : Byte) (s : State) : StepResult := execBrz 0#4 dest s

end Sys2Proof.Machine
end

