-- ==== Sys2Proof/Machine/Dispatch.lean ====
section
/-! DEFINITION. One arm per instruction. -/

namespace Sys2Proof.Machine

def exec (i : Instr) (s : State) : Host.Outcome State Fault Refusal :=
  match i with
  | .or rw ra rb => Sys2Proof.Machine.execOr rw ra rb s
  | .and rw ra rb => Sys2Proof.Machine.execAnd rw ra rb s
  | .not rw rb => Sys2Proof.Machine.execNot rw rb s
  | .cmp rw ra rb => Sys2Proof.Machine.execCmp rw ra rb s
  | .add rw ra rb => Sys2Proof.Machine.execAdd rw ra rb s
  | .sub rw ra rb => Sys2Proof.Machine.execSub rw ra rb s
  | .ori rw ra imm => Sys2Proof.Machine.execOri rw ra imm s
  | .andi rw ra imm => Sys2Proof.Machine.execAndi rw ra imm s
  | .noti rw imm => Sys2Proof.Machine.execNoti rw imm s
  | .cmpi rw ra imm => Sys2Proof.Machine.execCmpi rw ra imm s
  | .addi rw ra imm => Sys2Proof.Machine.execAddi rw ra imm s
  | .subi rw ra imm => Sys2Proof.Machine.execSubi rw ra imm s
  | .brz rb dest => Sys2Proof.Machine.execBrz rb dest s
  | .bro rb dest => Sys2Proof.Machine.execBro rb dest s
  | .mflo rw => Sys2Proof.Machine.execMflo rw s
  | .mfhi rw => Sys2Proof.Machine.execMfhi rw s
  | .ld rest => Sys2Proof.Machine.execLd rest s
  | .st rest => Sys2Proof.Machine.execSt rest s
  | .halt code => Sys2Proof.Machine.execHalt code s
  | .li rw imm => Sys2Proof.Machine.execLi rw imm s
  | .nop => Sys2Proof.Machine.execNop s
  | .br dest => Sys2Proof.Machine.execBr dest s

end Sys2Proof.Machine
end

