-- ==== Sys2Proof/Machine/Step.lean ====
section
/-! DEFINITION. One step of the machine (00_scope.md R11) and the host's load of a word where the next step fetches. -/

namespace Sys2Proof.Machine

/-- The step: a halted processor has none; else fetch and decode the word at `pc` and execute it (00_scope.md R11). The
remaining parts of the step (refusals, register, `pc`, `slot`) are each instruction's own. -/
def step (s : State) : Host.Outcome State Fault Refusal :=
  match s.stopped with
  | some f => .fault f
  | none =>
    match s.fetchInstr with
    | .error r => .refused r
    | .ok i => exec i s

/-- `s` with the word `w` of `nbits` bits loaded at `pc`, so that the next step runs it. It stands for the host's load of
`imem` (60_exceptions.md R218; log 7); a halted processor fetches nothing, so `halted` is cleared (log 9). -/
def State.withFetchWord (s : State) (nbits w : Nat) : State :=
  { s.loadWord s.pc (BitVec.ofNat 25 (w % 2 ^ nbits)) with halted := none }

end Sys2Proof.Machine
end

