-- ==== Sys2Proof/Machine/DataPath.lean ====
section
/-! DEFINITION. The data path's control signals as 10_state.md R45 lists them, and the value they make it compute. They are
information only: no meaning calls this file. It stands here so that the arithmetic the spec confirms by them
(40_alu_register.md R103, R106; 41_alu_immediate.md R125, R127) can be stated and proved. -/

namespace Sys2Proof.Machine

/-- The control signals, one spelling each (90_conflicts.md C8). -/
structure Signals where
  opAdd : Bool := false
  ciB0 : Bool := false
  opCmp : Bool := false
  opAnd : Bool := false
  opOr : Bool := false
  opBInv : Bool := false
  loadPC : Bool := false
  instnImm : Bool := false
  bDecLO : Bool := false
  bDecHI : Bool := false
deriving DecidableEq, Repr

/-- The signals an instruction sets to 1, given bit 0 of `RF[rb]` (R45's last column; the pages of HALT list none, and LD
and ST have no page). A pseudo-instruction has the signals of its expansion (46_pseudo.md R180 to R182). -/
def signals (b0 : Bool) : Instr → Signals
  | .or _ _ _ => { opOr := true }
  | .and _ _ _ => { opAnd := true }
  | .not _ _ => { opOr := true, opBInv := true }
  | .cmp _ _ _ => { opCmp := true }
  | .add _ _ _ => { opAdd := true }
  | .sub _ _ _ => { opAdd := true, ciB0 := true, opBInv := true }
  | .ori _ _ _ => { opOr := true, instnImm := true }
  | .andi _ _ _ => { opAnd := true, instnImm := true }
  | .noti _ _ => { opOr := true, opBInv := true, instnImm := true }
  | .cmpi _ _ _ => { opCmp := true, instnImm := true }
  | .addi _ _ _ => { opAdd := true, instnImm := true }
  | .subi _ _ _ => { opAdd := true, ciB0 := true, opBInv := true, instnImm := true }
  | .brz _ _ => { loadPC := !b0 }
  | .bro _ _ => { loadPC := b0 }
  | .mflo _ => { bDecLO := true }
  | .mfhi _ => { bDecHI := true }
  | .ld _ => {}
  | .st _ => {}
  | .halt _ => {}
  | .li _ _ => { opOr := true, instnImm := true }
  | .nop => { opOr := true }
  | .br _ => { loadPC := !b0 }

/-- The value on the B input: the immediate, Lo, Hi or `RF[rb]`, inverted when C1_OpBInv is set (R45). -/
def Signals.bInput (c : Signals) (b imm lo hi : Byte) : Byte :=
  let v := if c.instnImm then imm else if c.bDecLO then lo else if c.bDecHI then hi else b
  if c.opBInv then ~~~v else v

/-- The unit that provides the result, on the A input and the B input; `none` where the list names no unit (MFLO, MFHI, the
branches, HALT; 91_not_in_source.md N18). -/
def Signals.unitResult (c : Signals) (a b : Byte) : Option Byte :=
  if c.opAdd then some (a + b + (if c.ciB0 then 1#8 else 0#8))
  else if c.opCmp then some (compareResult a b)
  else if c.opAnd then some (a &&& b)
  else if c.opOr then some (a ||| b)
  else none

/-- What the data path computes when the word `w`, decoded to `i`, drives it: port A and port B are addressed by the raw ra
and rb fields of the word (30_encoding.md R71). -/
def dataPathResult (i : Instr) (w : InsWord) (s : State) : Option Byte :=
  let b := s.readReg (rbOf w)
  let c := signals (bitZero b) i
  c.unitResult (s.readReg (raOf w)) (c.bInput b (immOf w) s.lo s.hi)

end Sys2Proof.Machine
end

