-- ==== Sys2Proof/Safety.lean ====
section
/-! DEFINITION. The terms the claims are stated in: what a step may write, when an instruction can advance, what a run is,
the invariant of the machine, and the check on instruction memory of 70_reset_and_hazards.md R233. -/

namespace Sys2Proof.Safety

open Sys2Proof.Machine

/-! ### What one instruction leaves unchanged -/

/-- `t` is `s` but for `x[rw]`, which holds `v`, and for `pc` and `slot`: every other register, Lo, Hi, `halted` and every
word of instruction memory are as before. With `rw` = 0 nothing is written and `x[0]` still reads 0 (10_state.md R22). -/
def WritesOnly (rw : RegNum) (v : Byte) (s t : State) : Prop :=
  (rw ≠ 0#4 → t.readReg rw = v) ∧ t.readReg 0#4 = 0#8 ∧ (∀ r, r ≠ rw → t.readReg r = s.readReg r) ∧
  t.lo = s.lo ∧ t.hi = s.hi ∧ t.halted = s.halted ∧ ∀ a, t.ifetch a = s.ifetch a

/-- `t` has the registers, Lo, Hi and instruction memory of `s`. -/
def SameData (s t : State) : Prop :=
  (∀ r, t.readReg r = s.readReg r) ∧ t.lo = s.lo ∧ t.hi = s.hi ∧ ∀ a, t.ifetch a = s.ifetch a

/-- The registers an instruction reads through port A or port B (10_state.md R24). NOT reads rb alone; NOTI, LI, MFLO and MFHI
read no numbered register but the constant `x[0]`; what LD and ST read is not known (44_load_store.md R161). -/
def reads : Instr → List RegNum
  | .or _ ra rb => [ra, rb]
  | .and _ ra rb => [ra, rb]
  | .not _ rb => [rb]
  | .cmp _ ra rb => [ra, rb]
  | .add _ ra rb => [ra, rb]
  | .sub _ ra rb => [ra, rb]
  | .ori _ ra _ => [ra]
  | .andi _ ra _ => [ra]
  | .noti _ _ => []
  | .cmpi _ ra _ => [ra]
  | .addi _ ra _ => [ra]
  | .subi _ ra _ => [ra]
  | .brz rb _ => [rb]
  | .bro rb _ => [rb]
  | .mflo _ => []
  | .mfhi _ => []
  | .ld _ => []
  | .st _ => []
  | .halt _ => []
  | .li _ _ => []
  | .nop => []
  | .br _ => []

/-! ### When an instruction can advance (10_state.md R32) -/

/-- The next address exists: a taken branch gives it, or `pc` is not 255. -/
def canAdvance (s : State) : Bool :=
  match s.slot with
  | .take _ => true
  | .fall => decide (s.pc ≠ 255#8)
  | .none => decide (s.pc ≠ 255#8)

/-- `t` stands where 10_state.md R31 and R36 put the machine after any instruction but BRZ, BRO and HALT. -/
def Advanced (s t : State) : Prop :=
  t.slot = .none ∧
  t.pc = match s.slot with
    | .take d => d
    | .fall => s.pc + 1#8
    | .none => s.pc + 1#8

/-! ### Runs -/

/-- `n` steps of the machine (`Host.Core.run`). -/
abbrev runSteps (n : Nat) (s : State) : StepResult := Host.Core.run Sys2Proof.core n s

/-- The run has ended with exit code 0 (45_halt.md R170: "a successful completion"). -/
def succeeded (s : State) : Bool := s.halted == some 0#8

/-- The run has ended with another exit code (R170: "a failure"). -/
def failed (s : State) : Bool :=
  match s.halted with
  | none => false
  | some c => c != 0#8

/-! ### The invariant -/

/-- The word at an address decodes to a branch (BRZ or BRO; the decoder reports no other). -/
def branchAt (m : Memory) (a : Byte) : Bool :=
  match decode (memRead m a.toNat) with
  | .ok i => i.kind == .branch
  | .error _ => false

/-- The word at an address is a branch to `t`. -/
def branchToAt (m : Memory) (a t : Byte) : Bool :=
  branchAt m a && immOf (memRead m a.toNat) == t

/-- Some word of instruction memory is HALT with exit code `c`. -/
def haltIn (m : Memory) (c : Byte) : Bool :=
  (List.range Config.imemWords).any fun a => decode (memRead m a) == .ok (.halt c)

/-- While the machine runs, in a delay slot the word before `pc` is the branch, and a pending target is its imm field
(10_state.md R35). -/
def slotInv (s : State) : Bool :=
  match s.slot with
  | .none => true
  | .fall => decide (s.pc ≠ 0#8) && branchAt s.imem (s.pc - 1#8)
  | .take t => decide (s.pc ≠ 0#8) && branchToAt s.imem (s.pc - 1#8) t

/-- What holds of every state a run reaches: instruction memory is in canonical form; a running machine meets `slotInv`; a
halted one has the exit code of a HALT in instruction memory (45_halt.md R170). Nothing is said of `pc` after a halt (R171,
D15). -/
def machineInv (s : State) : Bool :=
  Memory.wf s.imem &&
  match s.halted with
  | none => slotInv s
  | some c => haltIn s.imem c

/-! ### The check of 70_reset_and_hazards.md R233 on instruction memory -/

/-- The word at `a` has a meaning wherever control comes from: it decodes to a described instruction (R233 item 1); if it is
a branch it does not stand at 255 and the word after it is no branch (items 2 and 3); if it is neither a branch nor HALT it
does not stand at 255 (item 3, conservatively: the check asks it of every address, reached or not). -/
def textOkAt (m : Memory) (a : Byte) : Bool :=
  match decode (memRead m a.toNat) with
  | .error _ => false
  | .ok i =>
    match i.kind with
    | .loadStore => false
    | .halt => true
    | .writer _ => decide (a ≠ 255#8)
    | .branch => decide (a ≠ 255#8) && !branchAt m (a + 1#8)

/-- Every word of instruction memory passes the check. -/
def TextOk (m : Memory) : Prop := ∀ a : Byte, textOkAt m a = true

end Sys2Proof.Safety
end

