-- ==== Sys2Proof/Certificates/Slice0/Obligations.lean ====
section
/-! DEFINITION. The statements for the provers, each from the rules of spec/ its docstring names. A statement marked "derived"
in OBLIGATIONS.json rests on a decision or an inference the spec marks as its own, or on a choice of this model; its docstring
names the decision or the log entry. -/

open Sys2Proof Sys2Proof.Machine Sys2Proof.Safety

/-- Words written out bit by bit from the figures of 95_test_vectors.md: one of every family decodes to its instruction
(that of LD by its opcode alone: the spec's decision D8, log 19); a word with a nonzero field drawn as 0 is reserved (D6,
log 17), an MF word with selector 2 is reserved (D9, log 20) and a word of a blank cell is illegal (D7, log 18).
(95_test_vectors.md section 2.6, 30_encoding.md sections 4 and 5, 92_eei_decisions.md D6, D7, D8, D9) -/
def Obligations.SpecWordsDecode : Prop :=
  decode 0b0000000110001001000000000#25 = .ok (.or 3#4 1#4 2#4) ∧
  decode 0b0111000100001000001100100#25 = .ok (.addi 2#4 1#4 100#8) ∧
  decode 0b1000000000000001100000010#25 = .ok (.brz 3#4 2#8) ∧
  decode 0b1001001110000000000000001#25 = .ok (.mfhi 7#4) ∧
  decode 0b1100000010010000000000101#25 = .ok (.ld 0x12005#20) ∧
  decode 0b1111100000000000000000011#25 = .ok (.halt 3#8) ∧
  decode 0x0031201#25 = .error .reserved ∧ decode 0x1260002#25 = .error .reserved ∧ decode 0x0200000#25 = .error .illegal

/-- For every 25-bit word, its value is opcode * 2^20 + rw * 2^16 + ra * 2^12 + rb * 2^8 + imm, the fields being 5, 4, 4, 4
and 8 bits wide. (R71) -/
def Obligations.WordIsItsFiveFields : Prop :=
  ∀ w : InsWord, w.toNat = (opcodeOf w).toNat * 2 ^ 20 + (rwOf w).toNat * 2 ^ 16 + (raOf w).toNat * 2 ^ 12 +
    (rbOf w).toNat * 2 ^ 8 + (immOf w).toNat

/-- For every well-formed instruction (every constructor but the three pseudo-instructions), decode (encode i) is i. The
decoder's checks of fields drawn as 0 and of the MF selector, and LD and ST by opcode alone, are decisions D6, D9 and D8
(log 17, 19, 20). The pseudo-instructions are PseudoNeverDecoded. (30_encoding.md sections 1, 3 and 4, 92_eei_decisions.md
D6, D8, D9) -/
def Obligations.DecodeOfEncode : Prop :=
  ∀ i : Instr, i.wellFormed = true → decode (encode i) = .ok i

/-- For every word w and instruction i, if decode w is i then i is well-formed and encode i is w: no bit of an accepted word
is dropped (the fields drawn as 0 and the MF selector are checked, LD and ST keep their 20 bits: decisions D6, D9 and D8,
log 17, 19, 20). (30_encoding.md section 4, 92_eei_decisions.md D6, D8, D9) -/
def Obligations.EncodeOfDecode : Prop :=
  ∀ (w : InsWord) (i : Instr), decode w = .ok i → i.wellFormed = true ∧ encode i = w

/-- The word of LI decodes to ORI with ra = 0, the word of NOP to OR with all fields 0, the word of BR to BRZ with rb = 0;
and no word decodes to LI, NOP or BR. (R90) -/
def Obligations.PseudoNeverDecoded : Prop :=
  (∀ rw imm, decode (encode (.li rw imm)) = .ok (.ori rw 0#4 imm)) ∧
  decode (encode .nop) = .ok (.or 0#4 0#4 0#4) ∧
  (∀ dest, decode (encode (.br dest)) = .ok (.brz 0#4 dest)) ∧
  ∀ (w : InsWord) (i : Instr), decode w = .ok i → (∀ rw imm, i ≠ .li rw imm) ∧ i ≠ .nop ∧ ∀ dest, i ≠ .br dest

/-- For every word w and every machine row (given by any well-formed instruction i of it): w decodes to some instruction of
the row if and only if w &&& mask = match, with the match and mask of the table of 30_encoding.md. The zero fields, the MF
selector and LD and ST by opcode alone are decisions D6, D9 and D8 (log 17, 19, 20). (30_encoding.md section 4, the match
and mask table, 92_eei_decisions.md D6, D8, D9) -/
def Obligations.DecodeAgreesWithMatchAndMask : Prop :=
  ∀ (w : InsWord) (i : Instr), i.wellFormed = true →
    ((∃ j, decode w = .ok j ∧ j.matchMask = i.matchMask) ↔ w &&& i.matchMask.2 = i.matchMask.1)

/-- For every word: decode answers illegal if and only if the opcode is in the list of 14 blank cells, whatever the other
bits (the spec's decision D7, log 18). (30_encoding.md section 5, 92_eei_decisions.md D7) -/
def Obligations.IllegalExactlyBlankCells : Prop :=
  ∀ w : InsWord, decode w = .error .illegal ↔
    opcodeOf w ∈ [0b00010#5, 0b00101#5, 0b01010#5, 0b01101#5, 0b10011#5, 0b10100#5, 0b10101#5, 0b10110#5, 0b10111#5,
      0b11010#5, 0b11011#5, 0b11100#5, 0b11101#5, 0b11110#5]

/-- For every word: decode answers reserved if and only if, for the shape of its opcode, a field drawn as 0 is not 0, or the
opcode is MF and imm is neither 0 nor 1 (the spec's decisions D6 and D9, log 17, 20). (30_encoding.md sections 1, 4 and 5,
92_eei_decisions.md D6, D9) -/
def Obligations.ReservedExactlyNonzeroFields : Prop :=
  ∀ w : InsWord, decode w = .error .reserved ↔
    (opcodeOf w ∈ [0b00000#5, 0b00001#5, 0b00100#5, 0b00110#5, 0b00111#5] ∧ immOf w ≠ 0#8) ∨
    (opcodeOf w = 0b00011#5 ∧ (raOf w ≠ 0#4 ∨ immOf w ≠ 0#8)) ∨
    (opcodeOf w ∈ [0b01000#5, 0b01001#5, 0b01100#5, 0b01110#5, 0b01111#5] ∧ rbOf w ≠ 0#4) ∨
    (opcodeOf w = 0b01011#5 ∧ (raOf w ≠ 0#4 ∨ rbOf w ≠ 0#4)) ∨
    (opcodeOf w ∈ [0b10000#5, 0b10001#5] ∧ (rwOf w ≠ 0#4 ∨ raOf w ≠ 0#4)) ∨
    (opcodeOf w = 0b10010#5 ∧ (raOf w ≠ 0#4 ∨ rbOf w ≠ 0#4 ∨ (immOf w ≠ 0#8 ∧ immOf w ≠ 1#8))) ∨
    (opcodeOf w = 0b11111#5 ∧ (rwOf w ≠ 0#4 ∨ raOf w ≠ 0#4 ∨ rbOf w ≠ 0#4))

/-- For the six pairs of rows 00 and 01, the word of the immediate form is the word of the register form with rb = 0, with
bit 23 set and the immediate in the imm field; the words of BRZ and BRO differ in bit 20 only. (30_encoding.md section 3,
regularities of the map) -/
def Obligations.ImmediateFormsDifferInBit23 : Prop :=
  (∀ (rw ra : RegNum) (imm : Byte),
    encode (.ori rw ra imm) = encode (.or rw ra 0#4) ||| 0x0800000#25 ||| imm.setWidth 25 ∧
    encode (.andi rw ra imm) = encode (.and rw ra 0#4) ||| 0x0800000#25 ||| imm.setWidth 25 ∧
    encode (.noti rw imm) = encode (.not rw 0#4) ||| 0x0800000#25 ||| imm.setWidth 25 ∧
    encode (.cmpi rw ra imm) = encode (.cmp rw ra 0#4) ||| 0x0800000#25 ||| imm.setWidth 25 ∧
    encode (.addi rw ra imm) = encode (.add rw ra 0#4) ||| 0x0800000#25 ||| imm.setWidth 25 ∧
    encode (.subi rw ra imm) = encode (.sub rw ra 0#4) ||| 0x0800000#25 ||| imm.setWidth 25) ∧
  ∀ (rb : RegNum) (dest : Byte), encode (.bro rb dest) = encode (.brz rb dest) ^^^ 0x0100000#25

/-- The number of words that decode to each row: 2^12 for OR, AND, CMP, ADD, SUB; 2^8 for NOT; 2^16 for ORI, ANDI, CMPI,
ADDI, SUBI; 2^12 for NOTI; 2^12 for BRZ and BRO; 2^4 for MFLO and MFHI; 2^20 for LD and ST; 2^8 for HALT; and 2,458,144 in
all. That the fields drawn as 0 are 0, the blank cells count nothing, LD and ST count by opcode alone and MF has two
selectors are the spec's decisions D6, D7, D8 and D9 (log 17, 18, 19, 20). (30_encoding.md section 5, count of words,
95_test_vectors.md section 2.6, count check, 92_eei_decisions.md D6, D7, D8, D9) -/
def Obligations.AcceptedWordCounts : Prop :=
  (∀ c ∈ [(Instr.or 0#4 0#4 0#4, 12), (.and 0#4 0#4 0#4, 12), (.not 0#4 0#4, 8), (.cmp 0#4 0#4 0#4, 12), (.add 0#4 0#4 0#4, 12),
      (.sub 0#4 0#4 0#4, 12), (.ori 0#4 0#4 0#8, 16), (.andi 0#4 0#4 0#8, 16), (.noti 0#4 0#8, 12), (.cmpi 0#4 0#4 0#8, 16),
      (.addi 0#4 0#4 0#8, 16), (.subi 0#4 0#4 0#8, 16), (.brz 0#4 0#8, 12), (.bro 0#4 0#8, 12), (.mflo 0#4, 4), (.mfhi 0#4, 4),
      (.ld 0#20, 20), (.st 0#20, 20), (.halt 0#8, 8)],
    Nat.card (Subtype fun w : InsWord => ∃ j, decode w = .ok j ∧ j.matchMask = c.1.matchMask) = 2 ^ c.2) ∧
  Nat.card (Subtype fun w : InsWord => ∃ j, decode w = .ok j) = 2458144

/-- For every state s that is not halted, if the word at pc decodes to i then step s is exec i s. Nothing stands around
exec: pc, slot and the refusals are each instruction's own. (00_scope.md section 5.2, the step) -/
def Obligations.StepRunsDecodedInstr : Prop :=
  ∀ (s : State) (i : Instr), s.halted = none → decode (s.ifetch s.pc) = .ok i → step s = exec i s

/-- For every state that is not halted: an illegal word at pc is refused as illegal_opcode and a reserved one as
reserved_encoding (the spec's decisions D6, D7, D9, log 17, 18, 20). (30_encoding.md section 5, 92_eei_decisions.md D6, D7,
D9) -/
def Obligations.StepRefusesUndecodedWord : Prop :=
  ∀ s : State, s.halted = none →
    (decode (s.ifetch s.pc) = .error .illegal → step s = .refused .illegalOpcode) ∧
    (decode (s.ifetch s.pc) = .error .reserved → step s = .refused .reservedEncoding)

/-- For every state with halted = some c, step stops with the model's fault halted c, and so does every run of one or more
steps. That the missing step shows as a fault is the model's choice (log 10). (45_halt.md, the halted state is final,
92_eei_decisions.md D15, notes/assumptions/10.md) -/
def Obligations.HaltedMachineHasNoStep : Prop :=
  ∀ (s : State) (c : Byte), s.halted = some c →
    step s = .fault (.halted c) ∧ ∀ n, runSteps (n + 1) s = .fault (.halted c)

/-- For every state whose instruction memory is in canonical form and every well-formed instruction i, the next step after
State.withFetchWord with the word of i is exec i; and the load changes only the word at pc and halted. The canonical form is
the model's (log 2), and so is withFetchWord (log 7, log 9). (60_exceptions.md section 7, the host, 20_memory.md section 1,
notes/assumptions/2.md, notes/assumptions/7.md, notes/assumptions/9.md) -/
def Obligations.LoadedWordRunsNext : Prop :=
  ∀ (s : State) (i : Instr), Memory.wf s.imem = true → i.wellFormed = true →
    let t := s.withFetchWord 25 (encode i).toNat
    step t = exec i t ∧ t.pc = s.pc ∧ t.slot = s.slot ∧ (∀ r, t.readReg r = s.readReg r) ∧ t.lo = s.lo ∧ t.hi = s.hi ∧
      ∀ a, a ≠ s.pc → t.ifetch a = s.ifetch a

/-- For all values of the parameters: after reset pc is 0, slot none, halted none, x[0] reads 0, x[1] to x[15] are rf_init,
lo and hi are lo_init and hi_init, imem is the loaded memory. State.reset is one of these states. The entry point is
decision D5 (log 16); the values in State.reset are the model's (log 3 to 5). (10_state.md section 7,
70_reset_and_hazards.md section 1, 92_eei_decisions.md D5, notes/assumptions/4.md, notes/assumptions/5.md) -/
def Obligations.ResetStateAsTheSpecSays : Prop :=
  (∀ p : Params, (State.ofParams p).pc = 0#8 ∧ (State.ofParams p).slot = .none ∧ (State.ofParams p).halted = none ∧
    (State.ofParams p).readReg 0#4 = 0#8 ∧
    (∀ k : Fin 15, (State.ofParams p).readReg (BitVec.ofNat 4 (k.val + 1)) = p.rfInit[k.val]) ∧
    (State.ofParams p).lo = p.loInit ∧ (State.ofParams p).hi = p.hiInit ∧ (State.ofParams p).imem = p.imem) ∧
  ∃ p : Params, State.reset = State.ofParams p

/-- In every state x[0] reads 0x00; every instruction whose destination is register 0 completes where its next address
exists, changes no register, Lo, Hi or memory, and advances pc and slot like any other (the advance rests on decision D2,
log 6). (10_state.md section 2, 92_eei_decisions.md D2) -/
def Obligations.ZeroRegisterHardwired : Prop :=
  (∀ s : State, s.readReg 0#4 = 0#8) ∧
  ∀ (i : Instr) (s : State), i.kind = .writer 0#4 → canAdvance s = true →
    ∃ t, exec i s = .next t ∧ SameData s t ∧ t.halted = s.halted ∧ Advanced s t

/-- For each of OR, AND, NOT, CMP, ADD, SUB, ORI, ANDI, NOTI, CMPI, ADDI, SUBI, MFLO, MFHI, LI and NOP: where the next
address exists it completes; pc becomes t when slot was take(t) and pc + 1 otherwise, and slot becomes none. That pc counts
words is decision D2 (log 6). (10_state.md sections 4 and 5, 92_eei_decisions.md D2) -/
def Obligations.WritersAdvance : Prop :=
  ∀ (i : Instr) (rw : RegNum) (s : State), i.kind = .writer rw → canAdvance s = true →
    ∃ t, exec i s = .next t ∧ Advanced s t ∧ t.halted = s.halted

/-- An instruction that writes a register is refused as pc_past_end exactly when pc is 255 and no taken branch is pending; a
branch outside a delay slot is refused so exactly when pc is 255. HALT at 255 completes (HaltStopsWithExitCode). The spec's
decision D3 (log 14). (10_state.md section 4, the end of the address space, 92_eei_decisions.md D3) -/
def Obligations.SequencePastEndRefused : Prop :=
  ∀ (i : Instr) (s : State),
    ((∃ rw, i.kind = .writer rw) → (exec i s = .refused .pcPastEnd ↔ s.pc = 255#8 ∧ ∀ d, s.slot ≠ .take d)) ∧
    (i.kind = .branch → s.slot = .none → (exec i s = .refused .pcPastEnd ↔ s.pc = 255#8))

/-- The word 00000 rw ra rb 0 is OR; OR writes x[ra] | x[rb] to x[rw]. It completes wherever its next address exists, and
every other register, Lo, Hi, halted and every word of instruction memory are as before; with rw = 0 nothing is written.
(R100) -/
def Obligations.OrWritesBitwiseOr : Prop :=
  ∀ (rw ra rb : RegNum) (s : State),
    decode (0b00000#5 ++ rw ++ ra ++ rb ++ 0#8) = .ok (.or rw ra rb) ∧
    (canAdvance s = true → ∃ t, exec (.or rw ra rb) s = .next t ∧
      WritesOnly rw (s.readReg ra ||| s.readReg rb) s t)

/-- The word 00001 rw ra rb 0 is AND; AND writes x[ra] & x[rb] to x[rw]. It completes wherever its next address exists, and
every other register, Lo, Hi, halted and every word of instruction memory are as before; with rw = 0 nothing is written.
(R102) -/
def Obligations.AndWritesBitwiseAnd : Prop :=
  ∀ (rw ra rb : RegNum) (s : State),
    decode (0b00001#5 ++ rw ++ ra ++ rb ++ 0#8) = .ok (.and rw ra rb) ∧
    (canAdvance s = true → ∃ t, exec (.and rw ra rb) s = .next t ∧
      WritesOnly rw (s.readReg ra &&& s.readReg rb) s t)

/-- The word 00011 rw 0 rb 0 is NOT; NOT writes the bitwise inverse of x[rb], 255 - x[rb] as a number, to x[rw]. It
completes wherever its next address exists, and every other register, Lo, Hi, halted and every word of instruction memory
are as before; with rw = 0 nothing is written. (40_alu_register.md, section NOT) -/
def Obligations.NotWritesInverse : Prop :=
  ∀ (rw rb : RegNum) (s : State),
    decode (0b00011#5 ++ rw ++ 0#4 ++ rb ++ 0#8) = .ok (.not rw rb) ∧
    (canAdvance s = true → ∃ t, exec (.not rw rb) s = .next t ∧
      WritesOnly rw (BitVec.ofNat 8 (255 - (s.readReg rb).toNat)) s t)

/-- The word 00100 rw ra rb 0 is CMP; CMP writes 0x01 to x[rw] when the two 8-bit patterns are the same and 0x00 when they
are not. It completes wherever its next address exists, and every other register, Lo, Hi, halted and every word of
instruction memory are as before; with rw = 0 nothing is written. (R104) -/
def Obligations.CmpWritesEquality : Prop :=
  ∀ (rw ra rb : RegNum) (s : State),
    decode (0b00100#5 ++ rw ++ ra ++ rb ++ 0#8) = .ok (.cmp rw ra rb) ∧
    (canAdvance s = true → ∃ t, exec (.cmp rw ra rb) s = .next t ∧
      WritesOnly rw (if s.readReg ra = s.readReg rb then 0x01#8 else 0x00#8) s t)

/-- The word 00110 rw ra rb 0 is ADD; ADD writes (x[ra] + x[rb]) mod 256 to x[rw]. That the carry is lost is decision D16
(log 26). It completes wherever its next address exists, and every other register, Lo, Hi, halted and every word of
instruction memory are as before; with rw = 0 nothing is written. (40_alu_register.md, section ADD, 92_eei_decisions.md D16)
-/
def Obligations.AddWritesSumModulo256 : Prop :=
  ∀ (rw ra rb : RegNum) (s : State),
    decode (0b00110#5 ++ rw ++ ra ++ rb ++ 0#8) = .ok (.add rw ra rb) ∧
    (canAdvance s = true → ∃ t, exec (.add rw ra rb) s = .next t ∧
      WritesOnly rw (BitVec.ofNat 8 (((s.readReg ra).toNat + (s.readReg rb).toNat) % 256)) s t)

/-- The word 00111 rw ra rb 0 is SUB; SUB writes (x[ra] - x[rb]) mod 256 to x[rw]. That the borrow is lost is decision D16
(log 26). It completes wherever its next address exists, and every other register, Lo, Hi, halted and every word of
instruction memory are as before; with rw = 0 nothing is written. (40_alu_register.md, section SUB, 92_eei_decisions.md D16)
-/
def Obligations.SubWritesDifferenceModulo256 : Prop :=
  ∀ (rw ra rb : RegNum) (s : State),
    decode (0b00111#5 ++ rw ++ ra ++ rb ++ 0#8) = .ok (.sub rw ra rb) ∧
    (canAdvance s = true → ∃ t, exec (.sub rw ra rb) s = .next t ∧
      WritesOnly rw (BitVec.ofNat 8 (((s.readReg ra).toNat + 256 - (s.readReg rb).toNat) % 256)) s t)

/-- The word 01000 rw ra 0 imm is ORI; ORI writes x[ra] | imm to x[rw]. It completes wherever its next address exists, and
every other register, Lo, Hi, halted and every word of instruction memory are as before; with rw = 0 nothing is written.
(R120) -/
def Obligations.OriWritesBitwiseOr : Prop :=
  ∀ (rw ra : RegNum) (imm : Byte) (s : State),
    decode (0b01000#5 ++ rw ++ ra ++ 0#4 ++ imm) = .ok (.ori rw ra imm) ∧
    (canAdvance s = true → ∃ t, exec (.ori rw ra imm) s = .next t ∧
      WritesOnly rw (s.readReg ra ||| imm) s t)

/-- The word 01001 rw ra 0 imm is ANDI; ANDI writes x[ra] & imm to x[rw]. It completes wherever its next address exists, and
every other register, Lo, Hi, halted and every word of instruction memory are as before; with rw = 0 nothing is written.
(R122) -/
def Obligations.AndiWritesBitwiseAnd : Prop :=
  ∀ (rw ra : RegNum) (imm : Byte) (s : State),
    decode (0b01001#5 ++ rw ++ ra ++ 0#4 ++ imm) = .ok (.andi rw ra imm) ∧
    (canAdvance s = true → ∃ t, exec (.andi rw ra imm) s = .next t ∧
      WritesOnly rw (s.readReg ra &&& imm) s t)

/-- The word 01011 rw 0 0 imm is NOTI; NOTI writes the bitwise inverse of the immediate, 255 - imm, to x[rw], whatever the
registers hold. It completes wherever its next address exists, and every other register, Lo, Hi, halted and every word of
instruction memory are as before; with rw = 0 nothing is written. (R125) -/
def Obligations.NotiWritesInverse : Prop :=
  ∀ (rw : RegNum) (imm : Byte) (s : State),
    decode (0b01011#5 ++ rw ++ 0#4 ++ 0#4 ++ imm) = .ok (.noti rw imm) ∧
    (canAdvance s = true → ∃ t, exec (.noti rw imm) s = .next t ∧
      WritesOnly rw (BitVec.ofNat 8 (255 - imm.toNat)) s t)

/-- The word 01100 rw ra 0 imm is CMPI; CMPI writes 0x01 to x[rw] when x[ra] equals the immediate and 0x00 when it does not.
It completes wherever its next address exists, and every other register, Lo, Hi, halted and every word of instruction memory
are as before; with rw = 0 nothing is written. (R124) -/
def Obligations.CmpiWritesEquality : Prop :=
  ∀ (rw ra : RegNum) (imm : Byte) (s : State),
    decode (0b01100#5 ++ rw ++ ra ++ 0#4 ++ imm) = .ok (.cmpi rw ra imm) ∧
    (canAdvance s = true → ∃ t, exec (.cmpi rw ra imm) s = .next t ∧
      WritesOnly rw (if s.readReg ra = imm then 0x01#8 else 0x00#8) s t)

/-- The word 01110 rw ra 0 imm is ADDI; ADDI writes (x[ra] + imm) mod 256 to x[rw]. That the carry is lost is decision D16
(log 26). It completes wherever its next address exists, and every other register, Lo, Hi, halted and every word of
instruction memory are as before; with rw = 0 nothing is written. (41_alu_immediate.md, section ADDI, 92_eei_decisions.md
D16) -/
def Obligations.AddiWritesSumModulo256 : Prop :=
  ∀ (rw ra : RegNum) (imm : Byte) (s : State),
    decode (0b01110#5 ++ rw ++ ra ++ 0#4 ++ imm) = .ok (.addi rw ra imm) ∧
    (canAdvance s = true → ∃ t, exec (.addi rw ra imm) s = .next t ∧
      WritesOnly rw (BitVec.ofNat 8 (((s.readReg ra).toNat + imm.toNat) % 256)) s t)

/-- The word 01111 rw ra 0 imm is SUBI; SUBI writes (x[ra] - imm) mod 256 to x[rw], the minuend being x[ra] (conflict C3).
That the borrow is lost is decision D16 (log 26). It completes wherever its next address exists, and every other register,
Lo, Hi, halted and every word of instruction memory are as before; with rw = 0 nothing is written. (41_alu_immediate.md,
section SUBI, 92_eei_decisions.md D16, 90_conflicts.md C3) -/
def Obligations.SubiWritesDifferenceModulo256 : Prop :=
  ∀ (rw ra : RegNum) (imm : Byte) (s : State),
    decode (0b01111#5 ++ rw ++ ra ++ 0#4 ++ imm) = .ok (.subi rw ra imm) ∧
    (canAdvance s = true → ∃ t, exec (.subi rw ra imm) s = .next t ∧
      WritesOnly rw (BitVec.ofNat 8 (((s.readReg ra).toNat + 256 - imm.toNat) % 256)) s t)

/-- The word 10010 rw 0 0 00000000 is MFLO; MFLO writes Lo to x[rw]. It completes wherever its next address exists, and
every other register, Lo, Hi, halted and every word of instruction memory are as before; with rw = 0 nothing is written.
(43_move_from.md, section MFLO) -/
def Obligations.MfloCopiesLo : Prop :=
  ∀ (rw : RegNum) (s : State),
    decode (0b10010#5 ++ rw ++ 0#4 ++ 0#4 ++ 0#8) = .ok (.mflo rw) ∧
    (canAdvance s = true → ∃ t, exec (.mflo rw) s = .next t ∧
      WritesOnly rw (s.lo) s t)

/-- The word 10010 rw 0 0 00000001 is MFHI; MFHI writes Hi to x[rw]. It completes wherever its next address exists, and
every other register, Lo, Hi, halted and every word of instruction memory are as before; with rw = 0 nothing is written.
(43_move_from.md, section MFHI) -/
def Obligations.MfhiCopiesHi : Prop :=
  ∀ (rw : RegNum) (s : State),
    decode (0b10010#5 ++ rw ++ 0#4 ++ 0#4 ++ 1#8) = .ok (.mfhi rw) ∧
    (canAdvance s = true → ∃ t, exec (.mfhi rw) s = .next t ∧
      WritesOnly rw (s.hi) s t)

/-- The word of LI is 0x0800000 + rw * 0x10000 + imm, that of ORI rw, r0, imm; LI acts as that ORI; it writes imm to x[rw],
completes wherever its next address exists, and leaves everything else but pc and slot as before; with rw = 0 nothing is
written. (R180) -/
def Obligations.LiLoadsImmediate : Prop :=
  ∀ (rw : RegNum) (imm : Byte) (s : State),
    (encode (.li rw imm)).toNat = 0x0800000 + rw.toNat * 0x10000 + imm.toNat ∧
    encode (.li rw imm) = encode (.ori rw 0#4 imm) ∧ exec (.li rw imm) s = exec (.ori rw 0#4 imm) s ∧
    (canAdvance s = true → ∃ t, exec (.li rw imm) s = .next t ∧ WritesOnly rw imm s t)

/-- The word of NOP is 0; NOP acts as OR with all fields 0; where its next address exists it completes and changes nothing
but pc and slot. That pc counts words is decision D2 (log 6). (46_pseudo.md, section NOP, 10_state.md section 4,
92_eei_decisions.md D2) -/
def Obligations.NopOnlyAdvances : Prop :=
  ∀ s : State, encode .nop = 0x0000000#25 ∧ exec .nop s = exec (.or 0#4 0#4 0#4) s ∧
    (canAdvance s = true → ∃ t, exec .nop s = .next t ∧ SameData s t ∧ t.halted = s.halted ∧ Advanced s t)

/-- The word 10000 0 0 rb dest is BRZ. Outside a delay slot and below address 255 BRZ completes: pc goes to the delay slot
at pc + 1, slot becomes take(dest) when bit 0 of x[rb] is 0 and fall when it is 1, and every register, Lo, Hi, halted and
instruction memory are as before. Rests on decision D2 (log 6). (42_branch.md, BRZ, 90_conflicts.md C1, 92_eei_decisions.md
D2, D3, D10) -/
def Obligations.BrzTakesOnBitZeroClear : Prop :=
  ∀ (rb : RegNum) (dest : Byte) (s : State),
    decode (0b10000#5 ++ 0#4 ++ 0#4 ++ rb ++ dest) = .ok (.brz rb dest) ∧
    (s.slot = .none → s.pc ≠ 255#8 → ∃ t, exec (.brz rb dest) s = .next t ∧ SameData s t ∧ t.halted = s.halted ∧
      t.pc = s.pc + 1#8 ∧ t.slot = if (s.readReg rb).toNat % 2 = 0 then .take dest else .fall)

/-- The word 10001 0 0 rb dest is BRO. Outside a delay slot and below address 255 BRO completes: pc goes to the delay slot
at pc + 1, slot becomes take(dest) when bit 0 of x[rb] is 1 and fall when it is 0, and every register, Lo, Hi, halted and
instruction memory are as before. Rests on decision D2 (log 6). (42_branch.md, BRO, 92_eei_decisions.md D2, D3, D10) -/
def Obligations.BroTakesOnBitZeroSet : Prop :=
  ∀ (rb : RegNum) (dest : Byte) (s : State),
    decode (0b10001#5 ++ 0#4 ++ 0#4 ++ rb ++ dest) = .ok (.bro rb dest) ∧
    (s.slot = .none → s.pc ≠ 255#8 → ∃ t, exec (.bro rb dest) s = .next t ∧ SameData s t ∧ t.halted = s.halted ∧
      t.pc = s.pc + 1#8 ∧ t.slot = if (s.readReg rb).toNat % 2 = 1 then .take dest else .fall)

/-- The word of BR is 0x1000000 + dest, that of BRZ r0, dest; BR acts as that BRZ; outside a delay slot and below address
255 it completes with pc + 1 and slot take(dest), and changes nothing else. Rests on decision D2 (log 6). (46_pseudo.md,
section BR, 92_eei_decisions.md D2, D3, D10) -/
def Obligations.BrAlwaysTaken : Prop :=
  ∀ (dest : Byte) (s : State),
    (encode (.br dest)).toNat = 0x1000000 + dest.toNat ∧ encode (.br dest) = encode (.brz 0#4 dest) ∧
    exec (.br dest) s = exec (.brz 0#4 dest) s ∧
    (s.slot = .none → s.pc ≠ 255#8 → ∃ t, exec (.br dest) s = .next t ∧ SameData s t ∧ t.halted = s.halted ∧
      t.pc = s.pc + 1#8 ∧ t.slot = .take dest)

/-- For BRZ, BRO and BR and every state whose slot is not none, the instruction is refused as branch_in_delay_slot, at
address 255 too. The spec's decision D10 (log 21). (42_branch.md, a branch in a delay slot, 92_eei_decisions.md D10) -/
def Obligations.BranchInDelaySlotRefused : Prop :=
  ∀ (i : Instr) (s : State), i.kind = .branch → s.slot ≠ .none → exec i s = .refused .branchInDelaySlot

/-- For all 20 remaining bits and every state: the word decodes to LD or ST by its opcode alone, and LD and ST are refused
as load_store_not_described. The spec's decision D8 (log 19). (R162, 30_encoding.md section 5, 92_eei_decisions.md D8) -/
def Obligations.LoadStoreAlwaysRefused : Prop :=
  ∀ (rest : BitVec 20) (s : State),
    decode (0b11000#5 ++ rest) = .ok (.ld rest) ∧ exec (.ld rest) s = .refused .loadStoreNotDescribed ∧
    decode (0b11001#5 ++ rest) = .ok (.st rest) ∧ exec (.st rest) s = .refused .loadStoreNotDescribed

/-- The word 11111 0 0 0 code is HALT. In every state, in a delay slot and at address 255 too, HALT completes with halted =
some(code); registers, Lo, Hi, slot and instruction memory keep their values; the next step does not exist; code 0 is
success and any other a failure. Decisions D11 and D15 (log 22, 25), slot kept: log 11, the missing step shown as a fault:
log 10; as D15 asks, nothing is claimed of pc after a halt. (45_halt.md, 42_branch.md, HALT in a delay slot,
92_eei_decisions.md D11, D15, notes/assumptions/10.md, notes/assumptions/11.md) -/
def Obligations.HaltStopsWithExitCode : Prop :=
  ∀ (code : Byte) (s : State),
    decode (0b11111#5 ++ 0#4 ++ 0#4 ++ 0#4 ++ code) = .ok (.halt code) ∧
    ∃ t, exec (.halt code) s = .next t ∧ t.halted = some code ∧ SameData s t ∧ t.slot = s.slot ∧
      step t = .fault (.halted code) ∧ (succeeded t = true ↔ code = 0#8) ∧ (failed t = true ↔ code ≠ 0#8)

/-- For every state at a BRZ or BRO that steps to t and then to u without halting: t stands at pc + 1, and u stands at the
imm field when the condition held with the register value before the branch, else at pc + 2, whatever the delay slot wrote;
u is out of the delay slot. pc + 1 is decision D2 (log 6). (42_branch.md, the delay slot, 92_eei_decisions.md D2) -/
def Obligations.DelaySlotThenTarget : Prop :=
  ∀ (s t u : State) (rb : RegNum) (dest : Byte), step s = .next t → step t = .next u → u.halted = none →
    (decode (s.ifetch s.pc) = .ok (.brz rb dest) →
      t.pc = s.pc + 1#8 ∧ u.slot = .none ∧ u.pc = if (s.readReg rb).toNat % 2 = 0 then dest else s.pc + 2#8) ∧
    (decode (s.ifetch s.pc) = .ok (.bro rb dest) →
      t.pc = s.pc + 1#8 ∧ u.slot = .none ∧ u.pc = if (s.readReg rb).toNat % 2 = 1 then dest else s.pc + 2#8)

/-- If a step of a running machine answers a state that still runs: its slot is not none exactly when the instruction
executed was a branch, and then the slot before was none. HALT is left out: it keeps slot (log 11). (10_state.md section 5,
transitions of slot, notes/assumptions/11.md) -/
def Obligations.DelaySlotLastsOneStep : Prop :=
  ∀ (s t : State) (i : Instr), step s = .next t → t.halted = none → decode (s.ifetch s.pc) = .ok i →
    (t.slot ≠ .none ↔ i.kind = .branch) ∧ (t.slot ≠ .none → s.slot = .none)

/-- For every state and every number of steps, if the run answers a next state, its Lo, Hi and instruction memory are those
of the start (the spec's decisions D4 and D20, log 15, 28). (10_state.md section 3, 20_memory.md section 1,
92_eei_decisions.md D4, D20) -/
def Obligations.LoHiAndInstructionMemoryFixed : Prop :=
  ∀ (n : Nat) (s t : State), runSteps n s = .next t → t.lo = s.lo ∧ t.hi = s.hi ∧ t.imem = s.imem

/-- If a step answers a next state in which register r reads another value than before, the word at pc decodes to an
instruction that writes register r, and r is not 0. BRZ, BRO and HALT change none. (10_state.md section 2, which instruction
reads and writes which entry) -/
def Obligations.OnlyDestinationRegisterChanges : Prop :=
  ∀ (s t : State) (r : RegNum), step s = .next t → t.readReg r ≠ s.readReg r →
    r ≠ 0#4 ∧ ∃ i, decode (s.ifetch s.pc) = .ok i ∧ i.kind = .writer r

/-- For every instruction i and register r that i does not read (the reads of 10_state.md's table): if i completes, it
completes from the state with any other value in r, to the same pc, slot, halted, Lo, Hi and the same value of every other
register. (10_state.md section 2, which instruction reads and writes which entry) -/
def Obligations.UnreadRegisterIsIrrelevant : Prop :=
  ∀ (i : Instr) (s t : State) (r : RegNum) (v : Byte), r ∉ reads i → exec i s = .next t →
    ∃ u, exec i (s.writeReg r v) = .next u ∧ u.pc = t.pc ∧ u.slot = t.slot ∧ u.halted = t.halted ∧ u.lo = t.lo ∧
      u.hi = t.hi ∧ u.imem = t.imem ∧ ∀ q, q ≠ r → u.readReg q = t.readReg q

/-- If a step executes an instruction other than MFLO and MFHI, the step from the same state with any other Lo and Hi
answers the same state with that Lo and Hi. (10_state.md section 3) -/
def Obligations.LoHiReachOnlyTheMoves : Prop :=
  ∀ (s t : State) (l h : Byte), step s = .next t →
    (∀ rw, decode (s.ifetch s.pc) ≠ .ok (.mflo rw)) → (∀ rw, decode (s.ifetch s.pc) ≠ .ok (.mfhi rw)) →
    step { s with lo := l, hi := h } = .next { t with lo := l, hi := h }

/-- If a step answers a next state t: t is halted with code c if and only if the word at pc decodes to HALT c. (10_state.md
section 5, the halted state, 45_halt.md, 92_eei_decisions.md D15) -/
def Obligations.OnlyHaltHalts : Prop :=
  ∀ (s t : State) (c : Byte), step s = .next t → (t.halted = some c ↔ decode (s.ifetch s.pc) = .ok (.halt c))

/-- If a step answers a next state that is not halted: with slot = take(d) before, pc is d; otherwise pc before was not 255
and pc after is pc + 1. There is no other control transfer (42_branch.md: no call, return or indirect jump). Decisions D2
and D3 (log 6, 14). (10_state.md section 4, 92_eei_decisions.md D2, D3) -/
def Obligations.PcMovesOnlyAsTheTableSays : Prop :=
  ∀ s t : State, step s = .next t → t.halted = none →
    (∃ d, s.slot = .take d ∧ t.pc = d) ∨ ((∀ d, s.slot ≠ .take d) ∧ s.pc ≠ 255#8 ∧ t.pc = s.pc + 1#8)

/-- exec answers a fault for no instruction and no state; step answers a fault exactly when the machine is halted, and names
the exit code (decision D12: no exception exists, log 23; log 10). (60_exceptions.md sections 1 and 4, 92_eei_decisions.md
D12) -/
def Obligations.NoInstructionFaults : Prop :=
  (∀ (i : Instr) (s : State) (f : Fault), exec i s ≠ .fault f) ∧
  ∀ (s : State) (f : Fault), step s = .fault f ↔ ∃ c, s.halted = some c ∧ f = .halted c

/-- For a machine that is not halted, step is refused with reason r if and only if: the word is illegal and r is
illegal_opcode; or it is reserved and r is reserved_encoding; or it decodes to LD or ST and r is load_store_not_described;
or to a branch while slot is not none and r is branch_in_delay_slot; or to an instruction other than HALT, LD, ST and a
branch in a delay slot, at 255 with no target pending, and r is pc_past_end. Decisions D3, D6 to D10 (log 14, 17, 18, 19,
20, 21). (60_exceptions.md sections 1 and 3, 92_eei_decisions.md D3, D6 to D10) -/
def Obligations.RefusalsAreTheClosedList : Prop :=
  ∀ (s : State) (r : Refusal), s.halted = none → (step s = .refused r ↔
    (decode (s.ifetch s.pc) = .error .illegal ∧ r = .illegalOpcode) ∨
    (decode (s.ifetch s.pc) = .error .reserved ∧ r = .reservedEncoding) ∨
    ∃ i, decode (s.ifetch s.pc) = .ok i ∧
      ((i.kind = .loadStore ∧ r = .loadStoreNotDescribed) ∨
       (i.kind = .branch ∧ s.slot ≠ .none ∧ r = .branchInDelaySlot) ∨
       (i.kind ≠ .loadStore ∧ i.kind ≠ .halt ∧ (i.kind = .branch → s.slot = .none) ∧ s.pc = 255#8 ∧
         (∀ d, s.slot ≠ .take d) ∧ r = .pcPastEnd)))

/-- For every rf_init, lo_init, hi_init and every instruction memory in canonical form, the state after reset meets
machineInv; so does State.reset. The canonical form is the model's (log 2); slot, halted and pc after reset are the spec's
decision D5 (log 16); the other values in State.reset are the model's (log 3 to 5). (10_state.md sections 5 and 7,
92_eei_decisions.md D5, notes/assumptions/2.md, notes/assumptions/3.md, notes/assumptions/4.md, notes/assumptions/5.md) -/
def Obligations.InvariantAtReset : Prop :=
  (∀ p : Params, Memory.wf p.imem = true → machineInv (State.ofParams p) = true) ∧ machineInv State.reset = true

/-- For every state that meets machineInv, if step answers a next state, that state meets it: instruction memory stays in
canonical form; in a delay slot of a running machine the word before pc is a branch, and the pending target is its imm
field; a halted machine has the exit code of a HALT in instruction memory. The canonical form is the model's (log 2). That
the word before pc is at pc - 1, that no instruction writes instruction memory, that a branch in a delay slot is refused and
that nothing is claimed of pc after a halt are the spec's decisions D2, D4, D10 and D15 (log 6, 15, 21, 25). (10_state.md
section 5, 42_branch.md, the delay slot, 45_halt.md, 92_eei_decisions.md D2, D4, D10, D15, notes/assumptions/2.md) -/
def Obligations.InvariantKeptByEveryStep : Prop :=
  ∀ s t : State, machineInv s = true → step s = .next t → machineInv t = true

/-- For every state that meets machineInv, is not halted, and whose 256 words all pass the check of 70_reset_and_hazards.md
(conservative form, log 13): step answers a next state; no refusal is possible. The canonical form in machineInv is the
model's (log 2). (70_reset_and_hazards.md section 2, notes/assumptions/2.md, notes/assumptions/13.md) -/
def Obligations.CheckedMemoryAlwaysSteps : Prop :=
  ∀ s : State, TextOk s.imem → machineInv s = true → s.halted = none → ∃ t, step s = .next t

/-- For all values of the open parameters, when the 256 words of instruction memory pass the check and are in canonical
form, a run of n steps from reset answers a next state, or has halted at an earlier step with some exit code, for every n.
The check is the conservative form (log 13) and the canonical form is the model's (log 2); the state after reset is decision
D5 (log 16), a halted state is final by decision D15 (log 25), and that a run past the halt ends in the model's fault halted
c is log 10. (70_reset_and_hazards.md section 2, 45_halt.md, 92_eei_decisions.md D5, D15, notes/assumptions/2.md,
notes/assumptions/10.md, notes/assumptions/13.md) -/
def Obligations.CheckedMemoryRunsAreNeverRefused : Prop :=
  ∀ (p : Params) (n : Nat), TextOk p.imem → Memory.wf p.imem = true →
    (∃ t, runSteps n (State.ofParams p) = .next t) ∨
    ∃ k t c, k < n ∧ runSteps k (State.ofParams p) = .next t ∧ t.halted = some c ∧
      runSteps n (State.ofParams p) = .fault (.halted c)

/-- For every arithmetic or logic instruction i that writes x[rw] (MFLO and MFHI apart, whose pages list no unit) the data
path, driven by the raw fields of the word of i and its listed control signals, computes a value, and that value is what i
writes; and C1_LoadPC is 1 exactly when a branch that executes is taken. The path itself (port A is RF[ra], I0_InstnImm
selects the immediate as the B input) is deduced (log 30): the spec marks it as derived and no meaning uses it. (10_state.md
section 9, 40_alu_register.md, NOT and SUB, 41_alu_immediate.md, NOTI and SUBI, notes/assumptions/30.md) -/
def Obligations.DataPathComputesTheResult : Prop :=
  (∀ (i : Instr) (rw : RegNum) (s : State), i.kind = .writer rw → (∀ q, i ≠ .mflo q) → (∀ q, i ≠ .mfhi q) →
    ∃ v, dataPathResult i (encode i) s = some v ∧ ∀ t, exec i s = .next t → WritesOnly rw v s t) ∧
  ∀ (i : Instr) (s t : State), i.kind = .branch → exec i s = .next t →
    ((signals (bitZero (s.readReg (rbOf (encode i)))) i).loadPC = true ↔ t.slot = .take (immOf (encode i)))

/-- For every state whose instruction memory is in canonical form, after loading v at address a: IFetch(a) is v, every other
address reads as before, and the memory is in canonical form. The canonical form is the model's (log 2), and loadWord stands
for the host's load of a program (log 7). (20_memory.md section 1, 60_exceptions.md section 7, notes/assumptions/2.md,
notes/assumptions/7.md) -/
def Obligations.LoadThenFetch : Prop :=
  ∀ (s : State) (a b : Byte) (v : InsWord), Memory.wf s.imem = true →
    (s.loadWord a v).ifetch b = (if b = a then v else s.ifetch b) ∧ Memory.wf (s.loadWord a v).imem = true

/-- If two memories are in canonical form and every one of the 256 addresses reads the same word in both, they are equal
lists. The form is the model's (log 2). (20_memory.md section 1, notes/assumptions/2.md) -/
def Obligations.EqualFetchesEqualMemory : Prop :=
  ∀ m n : Memory, Memory.wf m = true → Memory.wf n = true → (∀ a : Byte, memRead m a.toNat = memRead n a.toNat) → m = n
end

