-- ==== Sys2Proof/Laws/Decode.lean ====
section
/-! SUPPORT. The fields of a packed word, a word packed from its fields, and what each shape accepts. -/

namespace Sys2Proof

/-- The bits of a word packed from its fields (30_encoding.md R71). -/
theorem getLsbD_pack (op : Opcode) (rw ra rb : RegNum) (imm : Byte) (i : Nat) :
    (pack op rw ra rb imm).getLsbD i =
      if i < 8 then imm.getLsbD i else if i < 12 then rb.getLsbD (i - 8) else if i < 16 then ra.getLsbD (i - 12)
      else if i < 20 then rw.getLsbD (i - 16) else op.getLsbD (i - 20) := by
  have h1 : i - 8 - 4 = i - 12 := by omega
  have h2 : i - 12 - 4 = i - 16 := by omega
  have h3 : i - 16 - 4 = i - 20 := by omega
  unfold pack
  simp only [BitVec.getLsbD_append, h1, h2, h3]
  repeat' split
  all_goals first | rfl | omega

@[simp] theorem opcodeOf_pack (op : Opcode) (rw ra rb : RegNum) (imm : Byte) : opcodeOf (pack op rw ra rb imm) = op := by
  refine BitVec.eq_of_getLsbD_eq fun i hi => ?_
  rw [opcodeOf, BitVec.getLsbD_extractLsb', getLsbD_pack, if_neg (by omega), if_neg (by omega), if_neg (by omega), if_neg (by omega)]
  simp [hi]

@[simp] theorem rwOf_pack (op : Opcode) (rw ra rb : RegNum) (imm : Byte) : rwOf (pack op rw ra rb imm) = rw := by
  refine BitVec.eq_of_getLsbD_eq fun i hi => ?_
  rw [rwOf, BitVec.getLsbD_extractLsb', getLsbD_pack, if_neg (by omega), if_neg (by omega), if_neg (by omega), if_pos (by omega)]
  simp [hi]

@[simp] theorem raOf_pack (op : Opcode) (rw ra rb : RegNum) (imm : Byte) : raOf (pack op rw ra rb imm) = ra := by
  refine BitVec.eq_of_getLsbD_eq fun i hi => ?_
  rw [raOf, BitVec.getLsbD_extractLsb', getLsbD_pack, if_neg (by omega), if_neg (by omega), if_pos (by omega)]
  simp [hi]

@[simp] theorem rbOf_pack (op : Opcode) (rw ra rb : RegNum) (imm : Byte) : rbOf (pack op rw ra rb imm) = rb := by
  refine BitVec.eq_of_getLsbD_eq fun i hi => ?_
  rw [rbOf, BitVec.getLsbD_extractLsb', getLsbD_pack, if_neg (by omega), if_pos (by omega)]
  simp [hi]

@[simp] theorem immOf_pack (op : Opcode) (rw ra rb : RegNum) (imm : Byte) : immOf (pack op rw ra rb imm) = imm := by
  refine BitVec.eq_of_getLsbD_eq fun i hi => ?_
  rw [immOf, BitVec.getLsbD_extractLsb', getLsbD_pack, if_pos (by omega)]
  simp [hi]

/-- A word is its five fields (30_encoding.md R71). -/
theorem pack_fields (w : InsWord) : pack (opcodeOf w) (rwOf w) (raOf w) (rbOf w) (immOf w) = w := by
  refine BitVec.eq_of_getLsbD_eq fun i hi => ?_
  simp only [getLsbD_pack, opcodeOf, rwOf, raOf, rbOf, immOf, BitVec.getLsbD_extractLsb']
  split
  · rw [Nat.zero_add, decide_eq_true (by omega), Bool.true_and]
  split
  · rw [decide_eq_true (by omega), Bool.true_and, Nat.add_sub_cancel' (by omega)]
  split
  · rw [decide_eq_true (by omega), Bool.true_and, Nat.add_sub_cancel' (by omega)]
  split
  · rw [decide_eq_true (by omega), Bool.true_and, Nat.add_sub_cancel' (by omega)]
  · rw [decide_eq_true (by omega), Bool.true_and, Nat.add_sub_cancel' (by omega)]

/-- The word of a shape-U instruction has its opcode and its rest (30_encoding.md R72, R85). -/
@[simp] theorem opcodeOf_append (op : Opcode) (rest : BitVec 20) : opcodeOf (op ++ rest) = op := by
  refine BitVec.eq_of_getLsbD_eq fun i hi => ?_
  rw [opcodeOf, BitVec.getLsbD_extractLsb', BitVec.getLsbD_append, if_neg (by omega)]
  simp [hi]

@[simp] theorem restOf_append (op : Opcode) (rest : BitVec 20) : restOf (op ++ rest) = rest := by
  refine BitVec.eq_of_getLsbD_eq fun i hi => ?_
  rw [restOf, BitVec.getLsbD_extractLsb', BitVec.getLsbD_append, if_pos (by omega)]
  simp [hi]

/-- A word is its opcode and the rest. -/
theorem append_fields (w : InsWord) : opcodeOf w ++ restOf w = w := by
  refine BitVec.eq_of_getLsbD_eq fun i hi => ?_
  simp only [opcodeOf, restOf, BitVec.getLsbD_append, BitVec.getLsbD_extractLsb']
  split
  · rw [Nat.zero_add, decide_eq_true ‹_›, Bool.true_and]
  · rw [decide_eq_true (by omega), Bool.true_and, Nat.add_sub_cancel' (by omega)]

/-- Two words with the same five fields are the same word. -/
theorem word_ext {v w : InsWord} (h1 : opcodeOf v = opcodeOf w) (h2 : rwOf v = rwOf w) (h3 : raOf v = raOf w)
    (h4 : rbOf v = rbOf w) (h5 : immOf v = immOf w) : v = w := by
  rw [← pack_fields v, ← pack_fields w, h1, h2, h3, h4, h5]

/-! ### What each shape accepts (30_encoding.md R81) -/

@[simp] theorem whenZero_eq_ok {z : Bool} {i j : Instr} : whenZero z i = .ok j ↔ z = true ∧ i = j := by
  unfold whenZero; split <;> simp_all

@[simp] theorem whenZero_eq_error {z : Bool} {i : Instr} {e : DecodeReject} :
    whenZero z i = .error e ↔ z = false ∧ e = .reserved := by
  unfold whenZero; split <;> simp_all [eq_comm]

theorem shapeR_eq_ok {mk : RegNum → RegNum → RegNum → Instr} {w : InsWord} {i : Instr} :
    shapeR mk w = .ok i ↔ immOf w = 0#8 ∧ i = mk (rwOf w) (raOf w) (rbOf w) := by
  simp [shapeR, eq_comm (a := i)]

theorem shapeR2_eq_ok {mk : RegNum → RegNum → Instr} {w : InsWord} {i : Instr} :
    shapeR2 mk w = .ok i ↔ (raOf w = 0#4 ∧ immOf w = 0#8) ∧ i = mk (rwOf w) (rbOf w) := by
  simp [shapeR2, eq_comm (a := i)]

theorem shapeI_eq_ok {mk : RegNum → RegNum → Byte → Instr} {w : InsWord} {i : Instr} :
    shapeI mk w = .ok i ↔ rbOf w = 0#4 ∧ i = mk (rwOf w) (raOf w) (immOf w) := by
  simp [shapeI, eq_comm (a := i)]

theorem shapeI1_eq_ok {mk : RegNum → Byte → Instr} {w : InsWord} {i : Instr} :
    shapeI1 mk w = .ok i ↔ (raOf w = 0#4 ∧ rbOf w = 0#4) ∧ i = mk (rwOf w) (immOf w) := by
  simp [shapeI1, eq_comm (a := i)]

theorem shapeB_eq_ok {mk : RegNum → Byte → Instr} {w : InsWord} {i : Instr} :
    shapeB mk w = .ok i ↔ (rwOf w = 0#4 ∧ raOf w = 0#4) ∧ i = mk (rbOf w) (immOf w) := by
  simp [shapeB, eq_comm (a := i)]

theorem shapeH_eq_ok {mk : Byte → Instr} {w : InsWord} {i : Instr} :
    shapeH mk w = .ok i ↔ ((rwOf w = 0#4 ∧ raOf w = 0#4) ∧ rbOf w = 0#4) ∧ i = mk (immOf w) := by
  simp [shapeH, eq_comm (a := i)]

theorem shapeM_eq_ok {w : InsWord} {i : Instr} :
    shapeM w = .ok i ↔ (raOf w = 0#4 ∧ rbOf w = 0#4) ∧
      ((immOf w = 0#8 ∧ i = .mflo (rwOf w)) ∨ (immOf w = 1#8 ∧ i = .mfhi (rwOf w))) := by
  unfold shapeM
  split
  · simp [*, eq_comm (a := i)]
  · split
    · simp [*, eq_comm (a := i)]
    · simp [*]

end Sys2Proof
end

