-- ==== Sys2Proof/Laws/State.lean ====
section
/-! SUPPORT. One lemma per field per update of State. -/

namespace Sys2Proof.Machine

@[simp] theorem setPc_x (s : State) (a : Byte) : (s.setPc a).x = s.x := rfl
@[simp] theorem setPc_lo (s : State) (a : Byte) : (s.setPc a).lo = s.lo := rfl
@[simp] theorem setPc_hi (s : State) (a : Byte) : (s.setPc a).hi = s.hi := rfl
@[simp] theorem setPc_pc (s : State) (a : Byte) : (s.setPc a).pc = a := rfl
@[simp] theorem setPc_slot (s : State) (a : Byte) : (s.setPc a).slot = s.slot := rfl
@[simp] theorem setPc_halted (s : State) (a : Byte) : (s.setPc a).halted = s.halted := rfl
@[simp] theorem setPc_imem (s : State) (a : Byte) : (s.setPc a).imem = s.imem := rfl

@[simp] theorem setSlot_x (s : State) (v : Slot) : (s.setSlot v).x = s.x := rfl
@[simp] theorem setSlot_lo (s : State) (v : Slot) : (s.setSlot v).lo = s.lo := rfl
@[simp] theorem setSlot_hi (s : State) (v : Slot) : (s.setSlot v).hi = s.hi := rfl
@[simp] theorem setSlot_pc (s : State) (v : Slot) : (s.setSlot v).pc = s.pc := rfl
@[simp] theorem setSlot_slot (s : State) (v : Slot) : (s.setSlot v).slot = v := rfl
@[simp] theorem setSlot_halted (s : State) (v : Slot) : (s.setSlot v).halted = s.halted := rfl
@[simp] theorem setSlot_imem (s : State) (v : Slot) : (s.setSlot v).imem = s.imem := rfl

@[simp] theorem setHalted_x (s : State) (c : Byte) : (s.setHalted c).x = s.x := rfl
@[simp] theorem setHalted_lo (s : State) (c : Byte) : (s.setHalted c).lo = s.lo := rfl
@[simp] theorem setHalted_hi (s : State) (c : Byte) : (s.setHalted c).hi = s.hi := rfl
@[simp] theorem setHalted_pc (s : State) (c : Byte) : (s.setHalted c).pc = s.pc := rfl
@[simp] theorem setHalted_slot (s : State) (c : Byte) : (s.setHalted c).slot = s.slot := rfl
@[simp] theorem setHalted_halted (s : State) (c : Byte) : (s.setHalted c).halted = some c := rfl
@[simp] theorem setHalted_imem (s : State) (c : Byte) : (s.setHalted c).imem = s.imem := rfl

@[simp] theorem loadWord_x (s : State) (a : Byte) (v : InsWord) : (s.loadWord a v).x = s.x := rfl
@[simp] theorem loadWord_lo (s : State) (a : Byte) (v : InsWord) : (s.loadWord a v).lo = s.lo := rfl
@[simp] theorem loadWord_hi (s : State) (a : Byte) (v : InsWord) : (s.loadWord a v).hi = s.hi := rfl
@[simp] theorem loadWord_pc (s : State) (a : Byte) (v : InsWord) : (s.loadWord a v).pc = s.pc := rfl
@[simp] theorem loadWord_slot (s : State) (a : Byte) (v : InsWord) : (s.loadWord a v).slot = s.slot := rfl
@[simp] theorem loadWord_halted (s : State) (a : Byte) (v : InsWord) : (s.loadWord a v).halted = s.halted := rfl
@[simp] theorem loadWord_imem (s : State) (a : Byte) (v : InsWord) :
    (s.loadWord a v).imem = memWrite s.imem a.toNat v := rfl

@[simp] theorem writeReg_lo (s : State) (r : RegNum) (v : Byte) : (s.writeReg r v).lo = s.lo := by
  unfold State.writeReg; split <;> rfl
@[simp] theorem writeReg_hi (s : State) (r : RegNum) (v : Byte) : (s.writeReg r v).hi = s.hi := by
  unfold State.writeReg; split <;> rfl
@[simp] theorem writeReg_pc (s : State) (r : RegNum) (v : Byte) : (s.writeReg r v).pc = s.pc := by
  unfold State.writeReg; split <;> rfl
@[simp] theorem writeReg_slot (s : State) (r : RegNum) (v : Byte) : (s.writeReg r v).slot = s.slot := by
  unfold State.writeReg; split <;> rfl
@[simp] theorem writeReg_halted (s : State) (r : RegNum) (v : Byte) : (s.writeReg r v).halted = s.halted := by
  unfold State.writeReg; split <;> rfl
@[simp] theorem writeReg_imem (s : State) (r : RegNum) (v : Byte) : (s.writeReg r v).imem = s.imem := by
  unfold State.writeReg; split <;> rfl

/-! Reading a register and fetching a word look at one field each. -/

@[simp] theorem readReg_setPc (s : State) (a : Byte) (r : RegNum) : (s.setPc a).readReg r = s.readReg r := rfl
@[simp] theorem readReg_setSlot (s : State) (v : Slot) (r : RegNum) : (s.setSlot v).readReg r = s.readReg r := rfl
@[simp] theorem readReg_setHalted (s : State) (c : Byte) (r : RegNum) : (s.setHalted c).readReg r = s.readReg r := rfl
@[simp] theorem readReg_loadWord (s : State) (a : Byte) (v : InsWord) (r : RegNum) :
    (s.loadWord a v).readReg r = s.readReg r := rfl

theorem ifetch_of_imem_eq {s t : State} (h : t.imem = s.imem) (a : Byte) : t.ifetch a = s.ifetch a := by
  unfold State.ifetch; rw [h]

@[simp] theorem ifetch_setPc (s : State) (a b : Byte) : (s.setPc a).ifetch b = s.ifetch b := rfl
@[simp] theorem ifetch_setSlot (s : State) (v : Slot) (b : Byte) : (s.setSlot v).ifetch b = s.ifetch b := rfl
@[simp] theorem ifetch_setHalted (s : State) (c b : Byte) : (s.setHalted c).ifetch b = s.ifetch b := rfl
@[simp] theorem ifetch_writeReg (s : State) (r : RegNum) (v b : Byte) : (s.writeReg r v).ifetch b = s.ifetch b :=
  ifetch_of_imem_eq (writeReg_imem s r v) b

end Sys2Proof.Machine
end

