-- ==== Sys2Proof/Laws/Ops.lean ====
section
/-! SUPPORT. What each shared operation can do: registers, instruction memory, the end of a step. -/

namespace Sys2Proof.Machine

/-! ### Registers -/

@[simp] theorem readReg_zero (s : State) : s.readReg 0#4 = 0#8 := rfl

@[simp] theorem writeReg_zero (s : State) (v : Byte) : s.writeReg 0#4 v = s := rfl

theorem regIndex_lt (r : RegNum) (h : r ≠ 0#4) : r.toNat - 1 < 15 := by
  have := r.isLt
  have : r.toNat ≠ 0 := fun e => h (BitVec.eq_of_toNat_eq e)
  omega

/-- Two registers other than 0 stand at the same place only if they are the same. -/
theorem regIndex_inj {q r : RegNum} (hq : q ≠ 0#4) (hr : r ≠ 0#4) (h : q.toNat - 1 = r.toNat - 1) : q = r := by
  have : q.toNat ≠ 0 := fun e => hq (BitVec.eq_of_toNat_eq e)
  have : r.toNat ≠ 0 := fun e => hr (BitVec.eq_of_toNat_eq e)
  exact BitVec.eq_of_toNat_eq (by omega)

theorem readReg_writeReg_same (s : State) (r : RegNum) (v : Byte) (h : r ≠ 0#4) : (s.writeReg r v).readReg r = v := by
  simp [State.readReg, State.writeReg, h]

theorem readReg_writeReg_ne (s : State) (q r : RegNum) (v : Byte) (h : q ≠ r) :
    (s.writeReg r v).readReg q = s.readReg q := by
  by_cases hr : r = 0#4
  · subst hr; simp
  by_cases hq : q = 0#4
  · subst hq; simp
  have hi : r.toNat - 1 ≠ q.toNat - 1 := fun e => h (regIndex_inj hq hr e.symm)
  have := regIndex_lt q hq
  simp [State.readReg, State.writeReg, hr, hq, hi]

/-! ### Instruction memory -/

theorem memRead_memInsert (m : Memory) (a b : Nat) (v : InsWord) :
    memRead (memInsert m a v) b = if b = a then v else memRead m b := by
  induction m with
  | nil => simp [memInsert, memRead]
  | cons e m ih =>
    obtain ⟨c, w⟩ := e
    simp only [memInsert]
    split
    · simp [memRead]
    · split
      · rename_i h; subst h; simp only [memRead]; split <;> simp_all
      · simp only [memRead, ih]; split <;> split <;> simp_all

/-- The canonical form, entry by entry. -/
theorem memWfFrom_cons {lo a : Nat} {v : InsWord} {m : Memory} : memWfFrom lo ((a, v) :: m) = true ↔
    lo ≤ a ∧ a < 256 ∧ v ≠ Config.unlistedWord ∧ memWfFrom (a + 1) m = true := by
  simp only [memWfFrom, Bool.and_eq_true, decide_eq_true_eq, and_assoc]
  exact Iff.rfl

theorem memRead_of_lt {lo : Nat} {m : Memory} (h : memWfFrom lo m = true) {a : Nat} (ha : a < lo) :
    memRead m a = Config.unlistedWord := by
  induction m generalizing lo with
  | nil => rfl
  | cons e m ih =>
    obtain ⟨c, w⟩ := e
    simp only [memWfFrom, Bool.and_eq_true, decide_eq_true_eq] at h
    rw [memRead, if_neg (by omega)]
    exact ih h.2 (by omega)

theorem memWfFrom_mono {lo lo' : Nat} {m : Memory} (hle : lo' ≤ lo) (h : memWfFrom lo m = true) :
    memWfFrom lo' m = true := by
  cases m with
  | nil => rfl
  | cons e m =>
    simp only [memWfFrom, Bool.and_eq_true, decide_eq_true_eq] at h ⊢
    exact ⟨⟨⟨by omega, h.1.1.2⟩, h.1.2⟩, h.2⟩

theorem memRead_memErase {lo : Nat} {m : Memory} (h : memWfFrom lo m = true) (a b : Nat) :
    memRead (memErase m a) b = if b = a then Config.unlistedWord else memRead m b := by
  induction m generalizing lo with
  | nil => simp [memErase, memRead]
  | cons e m ih =>
    obtain ⟨c, w⟩ := e
    simp only [memWfFrom, Bool.and_eq_true, decide_eq_true_eq] at h
    simp only [memErase]
    split
    · rename_i hac
      subst hac
      split
      · rename_i hb; subst hb; exact memRead_of_lt h.2 (by omega)
      · simp_all [memRead]
    · simp only [memRead, ih h.2]
      split <;> split <;> simp_all

theorem memWfFrom_memInsert {lo : Nat} {m : Memory} (h : memWfFrom lo m = true) {a : Nat} {v : InsWord}
    (hlo : lo ≤ a) (ha : a < Config.imemWords) (hv : v ≠ Config.unlistedWord) : memWfFrom lo (memInsert m a v) = true := by
  induction m generalizing lo with
  | nil => simp [memInsert, memWfFrom, *]
  | cons e m ih =>
    obtain ⟨c, w⟩ := e
    simp only [memWfFrom, Bool.and_eq_true, decide_eq_true_eq] at h
    simp only [memInsert]
    split
    · simp only [memWfFrom, Bool.and_eq_true, decide_eq_true_eq]
      exact ⟨⟨⟨hlo, ha⟩, hv⟩, ⟨⟨by omega, h.1.1.2⟩, h.1.2⟩, h.2⟩
    · split
      · rename_i hac
        subst hac
        simp only [memWfFrom, Bool.and_eq_true, decide_eq_true_eq]
        exact ⟨⟨⟨hlo, ha⟩, hv⟩, h.2⟩
      · simp only [memWfFrom, Bool.and_eq_true, decide_eq_true_eq]
        exact ⟨h.1, ih h.2 (by omega)⟩

theorem memWfFrom_memErase {lo : Nat} {m : Memory} (h : memWfFrom lo m = true) (a : Nat) :
    memWfFrom lo (memErase m a) = true := by
  induction m generalizing lo with
  | nil => rfl
  | cons e m ih =>
    obtain ⟨c, w⟩ := e
    simp only [memWfFrom, Bool.and_eq_true, decide_eq_true_eq] at h
    simp only [memErase]
    split
    · exact memWfFrom_mono (by omega) h.2
    · simp only [memWfFrom, Bool.and_eq_true, decide_eq_true_eq]
      exact ⟨h.1, ih h.2⟩

/-- The only memory operation keeps the canonical form. -/
theorem memWrite_wf {m : Memory} (h : Memory.wf m = true) {a : Nat} (ha : a < Config.imemWords) (v : InsWord) :
    Memory.wf (memWrite m a v) = true := by
  unfold memWrite
  split
  · exact memWfFrom_memErase h a
  · exact memWfFrom_memInsert h (Nat.zero_le a) ha ‹_›

theorem loadWord_wf {s : State} (h : Memory.wf s.imem = true) (a : Byte) (v : InsWord) :
    Memory.wf (s.loadWord a v).imem = true :=
  memWrite_wf h (by have := a.isLt; simpa [Config.imemWords] using this) v

theorem reset_imem_wf : Memory.wf State.reset.imem = true := rfl

/-! ### The next address -/

/-- When there is no next address: at 255 with no branch pending (10_state.md R32). -/
theorem nextPc_eq_none_iff (s : State) : s.nextPc = none ↔ s.pc = 255#8 ∧ ∀ t, s.slot ≠ .take t := by
  unfold State.nextPc State.seqPc
  cases s.slot <;> simp

theorem seqPc_eq_some_iff (s : State) (n : Byte) : s.seqPc = some n ↔ s.pc ≠ 255#8 ∧ n = s.pc + 1#8 := by
  unfold State.seqPc
  split
  · simp [*]
  · simp [*, eq_comm (a := n)]

theorem nextPc_take {s : State} {t : Byte} (h : s.slot = .take t) : s.nextPc = some t := by simp [State.nextPc, h]

theorem nextPc_seq {s : State} (h : ∀ t, s.slot ≠ .take t) : s.nextPc = s.seqPc := by
  unfold State.nextPc
  cases hs : s.slot <;> simp_all

/-! ### The ends of a step -/

/-- Everything `writeBack` can answer with a next state. -/
theorem writeBack_next {rw : RegNum} {v : Byte} {s t : State} (h : writeBack rw v s = .next t) :
    ∃ n, s.nextPc = some n ∧ t = ((s.writeReg rw v).setPc n).setSlot .none := by
  unfold writeBack at h
  split at h
  · cases h
  · exact ⟨_, ‹_›, by simpa using h.symm⟩

theorem writeBack_of_nextPc {rw : RegNum} {v : Byte} {s : State} {n : Byte} (h : s.nextPc = some n) :
    writeBack rw v s = .next (((s.writeReg rw v).setPc n).setSlot .none) := by
  simp [writeBack, h]

theorem writeBack_refused {rw : RegNum} {v : Byte} {s : State} {r : Refusal} (h : writeBack rw v s = .refused r) :
    r = .pcPastEnd ∧ s.nextPc = none := by
  unfold writeBack at h
  split at h
  · exact ⟨by simpa using h.symm, ‹_›⟩
  · cases h

theorem writeBack_no_fault {rw : RegNum} {v : Byte} {s : State} {f : Fault} : writeBack rw v s ≠ .fault f := by
  unfold writeBack
  split <;> simp

/-- Everything `branchTo` can answer with a next state. -/
theorem branchTo_next {taken : Bool} {dest : Byte} {s t : State} (h : branchTo taken dest s = .next t) :
    s.slot = .none ∧ s.pc ≠ 255#8 ∧ t = (s.setPc (s.pc + 1#8)).setSlot (if taken then .take dest else .fall) := by
  unfold branchTo at h
  split at h
  · split at h
    · cases h
    · rename_i n hn
      rw [seqPc_eq_some_iff] at hn
      obtain ⟨hp, rfl⟩ := hn
      exact ⟨‹_›, hp, by simpa using h.symm⟩
  · cases h
  · cases h

theorem branchTo_of_slot_none {taken : Bool} {dest : Byte} {s : State} (hs : s.slot = .none) (hp : s.pc ≠ 255#8) :
    branchTo taken dest s = .next ((s.setPc (s.pc + 1#8)).setSlot (if taken then .take dest else .fall)) := by
  have : s.seqPc = some (s.pc + 1#8) := (seqPc_eq_some_iff s _).2 ⟨hp, rfl⟩
  simp [branchTo, hs, this]

theorem branchTo_refused {taken : Bool} {dest : Byte} {s : State} {r : Refusal} (h : branchTo taken dest s = .refused r) :
    (r = .branchInDelaySlot ∧ s.slot ≠ .none) ∨ (r = .pcPastEnd ∧ s.slot = .none ∧ s.pc = 255#8) := by
  unfold branchTo at h
  split at h
  · split at h
    · rename_i hs _ hn
      refine .inr ⟨by simpa using h.symm, hs, ?_⟩
      have := (nextPc_eq_none_iff s).1 (by simpa [State.nextPc, hs] using hn)
      exact this.1
    · cases h
  · exact .inl ⟨by simpa using h.symm, by simp_all⟩
  · exact .inl ⟨by simpa using h.symm, by simp_all⟩

theorem branchTo_no_fault {taken : Bool} {dest : Byte} {s : State} {f : Fault} : branchTo taken dest s ≠ .fault f := by
  unfold branchTo
  split
  · split <;> simp
  · simp
  · simp

end Sys2Proof.Machine
end

