-- ==== Sys2Proof/Laws/PerInstr.lean ====
section
/-! SUPPORT. One lemma per instruction of each family named in LAWS.json. -/

namespace Sys2Proof

theorem opcodeOf_and (v w : InsWord) : opcodeOf (v &&& w) = opcodeOf v &&& opcodeOf w := BitVec.extractLsb'_and
theorem rwOf_and (v w : InsWord) : rwOf (v &&& w) = rwOf v &&& rwOf w := BitVec.extractLsb'_and
theorem raOf_and (v w : InsWord) : raOf (v &&& w) = raOf v &&& raOf w := BitVec.extractLsb'_and
theorem rbOf_and (v w : InsWord) : rbOf (v &&& w) = rbOf v &&& rbOf w := BitVec.extractLsb'_and
theorem immOf_and (v w : InsWord) : immOf (v &&& w) = immOf v &&& immOf w := BitVec.extractLsb'_and
theorem restOf_and (v w : InsWord) : restOf (v &&& w) = restOf v &&& restOf w := BitVec.extractLsb'_and

/-- A packed word matches a row when each field of it matches that field of the row. -/
theorem pack_and_eq {op : Opcode} {rw ra rb : RegNum} {imm : Byte} {mask row : InsWord}
    (h1 : op &&& opcodeOf mask = opcodeOf row) (h2 : rw &&& rwOf mask = rwOf row) (h3 : ra &&& raOf mask = raOf row)
    (h4 : rb &&& rbOf mask = rbOf row) (h5 : imm &&& immOf mask = immOf row) :
    pack op rw ra rb imm &&& mask = row :=
  word_ext (by simpa [opcodeOf_and]) (by simpa [rwOf_and]) (by simpa [raOf_and]) (by simpa [rbOf_and]) (by simpa [immOf_and])

theorem and_zero4 (v : RegNum) {m r : RegNum} (h : m = 0#4) (hr : r = 0#4) : v &&& m = r := by subst h hr; exact BitVec.and_zero

theorem and_zero8 (v : Byte) {m r : Byte} (h : m = 0#8) (hr : r = 0#8) : v &&& m = r := by subst h hr; exact BitVec.and_zero

/-- A shape-U word matches a row whose mask has the opcode alone. -/
theorem append_and_eq {op : Opcode} {rest : BitVec 20} {mask row : InsWord}
    (h1 : op &&& opcodeOf mask = opcodeOf row) (h2 : restOf mask = 0#20) (h3 : restOf row = 0#20) :
    (op ++ rest) &&& mask = row := by
  rw [← append_fields ((op ++ rest) &&& mask), ← append_fields row, opcodeOf_and, restOf_and]
  simp [h1, h2, h3]

end Sys2Proof

namespace Sys2Proof.Laws.MatchMask

/-- The word the encoder gives an instruction is a word of that instruction's row (30_encoding.md R82). -/
def Statement (i : Instr) : Prop := encode i &&& i.matchMask.2 = i.matchMask.1

theorem or (rw ra rb : RegNum) : Statement (.or rw ra rb) :=
  show _ &&& 0x1F000FF#25 = 0x0000000#25 from
    pack_and_eq (by decide) (and_zero4 _ (by decide) (by decide)) (and_zero4 _ (by decide) (by decide)) (and_zero4 _ (by decide) (by decide)) (by decide)
theorem and (rw ra rb : RegNum) : Statement (.and rw ra rb) :=
  show _ &&& 0x1F000FF#25 = 0x0100000#25 from
    pack_and_eq (by decide) (and_zero4 _ (by decide) (by decide)) (and_zero4 _ (by decide) (by decide)) (and_zero4 _ (by decide) (by decide)) (by decide)
theorem not (rw rb : RegNum) : Statement (.not rw rb) :=
  show _ &&& 0x1F0F0FF#25 = 0x0300000#25 from
    pack_and_eq (by decide) (and_zero4 _ (by decide) (by decide)) (by decide) (and_zero4 _ (by decide) (by decide)) (by decide)
theorem cmp (rw ra rb : RegNum) : Statement (.cmp rw ra rb) :=
  show _ &&& 0x1F000FF#25 = 0x0400000#25 from
    pack_and_eq (by decide) (and_zero4 _ (by decide) (by decide)) (and_zero4 _ (by decide) (by decide)) (and_zero4 _ (by decide) (by decide)) (by decide)
theorem add (rw ra rb : RegNum) : Statement (.add rw ra rb) :=
  show _ &&& 0x1F000FF#25 = 0x0600000#25 from
    pack_and_eq (by decide) (and_zero4 _ (by decide) (by decide)) (and_zero4 _ (by decide) (by decide)) (and_zero4 _ (by decide) (by decide)) (by decide)
theorem sub (rw ra rb : RegNum) : Statement (.sub rw ra rb) :=
  show _ &&& 0x1F000FF#25 = 0x0700000#25 from
    pack_and_eq (by decide) (and_zero4 _ (by decide) (by decide)) (and_zero4 _ (by decide) (by decide)) (and_zero4 _ (by decide) (by decide)) (by decide)
theorem ori (rw ra : RegNum) (imm : Byte) : Statement (.ori rw ra imm) :=
  show _ &&& 0x1F00F00#25 = 0x0800000#25 from
    pack_and_eq (by decide) (and_zero4 _ (by decide) (by decide)) (and_zero4 _ (by decide) (by decide)) (by decide) (and_zero8 _ (by decide) (by decide))
theorem andi (rw ra : RegNum) (imm : Byte) : Statement (.andi rw ra imm) :=
  show _ &&& 0x1F00F00#25 = 0x0900000#25 from
    pack_and_eq (by decide) (and_zero4 _ (by decide) (by decide)) (and_zero4 _ (by decide) (by decide)) (by decide) (and_zero8 _ (by decide) (by decide))
theorem noti (rw : RegNum) (imm : Byte) : Statement (.noti rw imm) :=
  show _ &&& 0x1F0FF00#25 = 0x0B00000#25 from
    pack_and_eq (by decide) (and_zero4 _ (by decide) (by decide)) (by decide) (by decide) (and_zero8 _ (by decide) (by decide))
theorem cmpi (rw ra : RegNum) (imm : Byte) : Statement (.cmpi rw ra imm) :=
  show _ &&& 0x1F00F00#25 = 0x0C00000#25 from
    pack_and_eq (by decide) (and_zero4 _ (by decide) (by decide)) (and_zero4 _ (by decide) (by decide)) (by decide) (and_zero8 _ (by decide) (by decide))
theorem addi (rw ra : RegNum) (imm : Byte) : Statement (.addi rw ra imm) :=
  show _ &&& 0x1F00F00#25 = 0x0E00000#25 from
    pack_and_eq (by decide) (and_zero4 _ (by decide) (by decide)) (and_zero4 _ (by decide) (by decide)) (by decide) (and_zero8 _ (by decide) (by decide))
theorem subi (rw ra : RegNum) (imm : Byte) : Statement (.subi rw ra imm) :=
  show _ &&& 0x1F00F00#25 = 0x0F00000#25 from
    pack_and_eq (by decide) (and_zero4 _ (by decide) (by decide)) (and_zero4 _ (by decide) (by decide)) (by decide) (and_zero8 _ (by decide) (by decide))
theorem brz (rb : RegNum) (dest : Byte) : Statement (.brz rb dest) :=
  show _ &&& 0x1FFF000#25 = 0x1000000#25 from
    pack_and_eq (by decide) (by decide) (by decide) (and_zero4 _ (by decide) (by decide)) (and_zero8 _ (by decide) (by decide))
theorem bro (rb : RegNum) (dest : Byte) : Statement (.bro rb dest) :=
  show _ &&& 0x1FFF000#25 = 0x1100000#25 from
    pack_and_eq (by decide) (by decide) (by decide) (and_zero4 _ (by decide) (by decide)) (and_zero8 _ (by decide) (by decide))
theorem mflo (rw : RegNum) : Statement (.mflo rw) :=
  show _ &&& 0x1F0FFFF#25 = 0x1200000#25 from
    pack_and_eq (by decide) (and_zero4 _ (by decide) (by decide)) (by decide) (by decide) (by decide)
theorem mfhi (rw : RegNum) : Statement (.mfhi rw) :=
  show _ &&& 0x1F0FFFF#25 = 0x1200001#25 from
    pack_and_eq (by decide) (and_zero4 _ (by decide) (by decide)) (by decide) (by decide) (by decide)
theorem ld (rest : BitVec 20) : Statement (.ld rest) :=
  show _ &&& 0x1F00000#25 = 0x1800000#25 from
    append_and_eq (by decide) (by decide) (by decide)
theorem st (rest : BitVec 20) : Statement (.st rest) :=
  show _ &&& 0x1F00000#25 = 0x1900000#25 from
    append_and_eq (by decide) (by decide) (by decide)
theorem halt (code : Byte) : Statement (.halt code) :=
  show _ &&& 0x1FFFF00#25 = 0x1F00000#25 from
    pack_and_eq (by decide) (by decide) (by decide) (by decide) (and_zero8 _ (by decide) (by decide))
theorem li (rw : RegNum) (imm : Byte) : Statement (.li rw imm) :=
  show _ &&& 0x1F0FF00#25 = 0x0800000#25 from
    pack_and_eq (by decide) (and_zero4 _ (by decide) (by decide)) (by decide) (by decide) (and_zero8 _ (by decide) (by decide))
theorem nop : Statement .nop :=
  show 0x0000000#25 &&& 0x1FFFFFF#25 = 0x0000000#25 from by decide

end Sys2Proof.Laws.MatchMask
end

