-- ==== Sys2Proof/Laws/Step.lean ====
section
/-! SUPPORT. What an instruction and a step can do, said once. -/

namespace Sys2Proof.Machine

/-- A writer ends in `writeBack` to its own destination (10_state.md R24). -/
theorem exec_writer {i : Instr} {rw : RegNum} (h : i.kind = .writer rw) (s : State) :
    ∃ v, exec i s = writeBack rw v s := by
  cases i <;> simp only [Instr.kind, InstrKind.writer.injEq, reduceCtorEq] at h <;> subst h <;> exact ⟨_, rfl⟩

/-- A branch ends in `branchTo`. -/
theorem exec_branch {i : Instr} (h : i.kind = .branch) (s : State) :
    ∃ taken dest, exec i s = branchTo taken dest s := by
  cases i <;> simp only [Instr.kind, reduceCtorEq] at h <;> exact ⟨_, _, rfl⟩

/-- HALT. -/
theorem exec_halt {i : Instr} (h : i.kind = .halt) (s : State) : ∃ c, i = .halt c ∧ exec i s = .next (s.setHalted c) := by
  cases i <;> simp only [Instr.kind, reduceCtorEq] at h
  exact ⟨_, rfl, rfl⟩

/-- LD and ST. -/
theorem exec_loadStore {i : Instr} (h : i.kind = .loadStore) (s : State) : exec i s = .refused .loadStoreNotDescribed := by
  cases i <;> simp only [Instr.kind, reduceCtorEq] at h <;> rfl

/-- Everything an instruction can do when it answers a next state (00_scope.md R11). -/
theorem exec_cases {i : Instr} {s t : State} (h : exec i s = .next t) :
    (∃ rw v n, i.kind = .writer rw ∧ s.nextPc = some n ∧ t = ((s.writeReg rw v).setPc n).setSlot .none) ∨
    (∃ (taken : Bool) (dest : Byte), i.kind = .branch ∧ s.slot = .none ∧ s.pc ≠ 255#8 ∧
      t = (s.setPc (s.pc + 1#8)).setSlot (if taken then .take dest else .fall)) ∨
    (∃ c, i = .halt c ∧ t = s.setHalted c) := by
  cases hk : i.kind with
  | writer rw =>
    obtain ⟨v, hv⟩ := exec_writer hk s
    obtain ⟨n, hn, rfl⟩ := writeBack_next (hv ▸ h)
    exact .inl ⟨rw, v, n, rfl, hn, rfl⟩
  | branch =>
    obtain ⟨b, d, hb⟩ := exec_branch hk s
    obtain ⟨h1, h2, rfl⟩ := branchTo_next (hb ▸ h)
    exact .inr (.inl ⟨b, d, rfl, h1, h2, rfl⟩)
  | halt =>
    obtain ⟨c, rfl, hc⟩ := exec_halt hk s
    exact .inr (.inr ⟨c, rfl, by rw [hc] at h; exact (Host.Outcome.next.inj h).symm⟩)
  | loadStore => simp [exec_loadStore hk s] at h

/-- Everything a step can do when it answers a next state. -/
theorem step_next {s t : State} (h : step s = .next t) :
    s.halted = none ∧ ∃ i, decode (s.ifetch s.pc) = .ok i ∧ exec i s = .next t := by
  unfold step State.stopped State.fetchInstr at h
  cases hh : s.halted with
  | some c => simp [hh] at h
  | none =>
    cases hd : decode (s.ifetch s.pc) with
    | error e => simp [hh, hd, Except.mapError] at h
    | ok i => exact ⟨rfl, i, rfl, by simpa [hh, hd, Except.mapError] using h⟩

theorem step_of_error {s : State} {e : DecodeReject} (hh : s.halted = none) (hd : decode (s.ifetch s.pc) = .error e) :
    step s = .refused (rejectRefusal e) := by
  simp [step, State.stopped, State.fetchInstr, hh, hd, Except.mapError]

end Sys2Proof.Machine
end

