-- ==== Sys2Proof/Laws/Run.lean ====
section
/-! SUPPORT. Runs, one step at a time, and the ends of a step in the terms the claims use. -/

namespace Sys2Proof.Safety

open Sys2Proof.Machine

@[simp] theorem runSteps_zero (s : State) : runSteps 0 s = .next s := rfl

/-- A run of `n + 1` steps is a step and a run of `n` steps. -/
theorem run_succ (M : Host.Core) (n : Nat) (s : M.State) : M.run (n + 1) s = match M.step s with
    | .next t => M.run n t
    | .fault f => .fault f
    | .refused r => .refused r := by
  rfl

theorem runSteps_of_next {s t : State} (h : step s = .next t) (n : Nat) : runSteps (n + 1) s = runSteps n t := by
  have h' : Sys2Proof.core.step s = .next t := h
  exact (run_succ Sys2Proof.core n s).trans (by rw [h'])

theorem runSteps_of_fault {s : State} {f : Fault} (h : step s = .fault f) (n : Nat) : runSteps (n + 1) s = .fault f := by
  have h' : Sys2Proof.core.step s = .fault f := h
  exact (run_succ Sys2Proof.core n s).trans (by rw [h']; rfl)

theorem runSteps_of_refused {s : State} {r : Refusal} (h : step s = .refused r) (n : Nat) :
    runSteps (n + 1) s = .refused r := by
  have h' : Sys2Proof.core.step s = .refused r := h
  exact (run_succ Sys2Proof.core n s).trans (by rw [h']; rfl)

/-- Where the next address exists it is the one `Advanced` names (10_state.md R31). -/
theorem nextPc_of_canAdvance {s t : State} (h : canAdvance s = true) {n : Byte} (hn : s.nextPc = some n)
    (ht : t.pc = n) (hs : t.slot = .none) : Advanced s t := by
  refine ⟨hs, ?_⟩
  unfold State.nextPc State.seqPc at hn
  unfold canAdvance at h
  cases hs : s.slot <;> simp_all

theorem exists_nextPc {s : State} (h : canAdvance s = true) : ∃ n, s.nextPc = some n := by
  unfold canAdvance at h
  unfold State.nextPc State.seqPc
  cases hs : s.slot <;> simp_all

/-- The state `writeBack` answers, as the claims say it. -/
theorem writesOnly_writeBack (rw : RegNum) (v : Byte) (s : State) (n : Byte) :
    WritesOnly rw v s (((s.writeReg rw v).setPc n).setSlot .none) := by
  refine ⟨fun h => ?_, ?_, fun r h => ?_, ?_, ?_, ?_, ?_⟩ <;> simp
  · exact readReg_writeReg_same s rw v h
  · exact readReg_writeReg_ne s r rw v h

end Sys2Proof.Safety
end

