-- ==== Sys2Proof/Tests/Slice0.lean ====
section
/-! SUPPORT. The model's own tests. Every expected result is a row of spec/95_test_vectors.md (its section is named) or is
worked out by hand from the rule named. -/

namespace Sys2Proof.Tests

open Sys2Proof.Machine Sys2Proof.Safety

/-! ### WellFormed refuses the assembler's spellings (30_encoding.md R90) -/

theorem test_wf_refuses_li : (Instr.li 1#4 5#8).wellFormed = false := by decide
theorem test_wf_refuses_nop : Instr.nop.wellFormed = false := by decide
theorem test_wf_refuses_br : (Instr.br 4#8).wellFormed = false := by decide
theorem test_wf_accepts_or : (Instr.or 3#4 1#4 2#4).wellFormed = true := by decide

/-! ### Decoding: a word written out bit by bit from the figure of every instruction (95_test_vectors.md section 1.1) -/

theorem test_decode_or :
    decode 0b0000000110001001000000000#25 = .ok (.or 3#4 1#4 2#4) := by decide
theorem test_decode_and :
    decode 0b0000100110001001000000000#25 = .ok (.and 3#4 1#4 2#4) := by decide
theorem test_decode_not :
    decode 0b0001100100000000100000000#25 = .ok (.not 2#4 1#4) := by decide
theorem test_decode_cmp :
    decode 0b0010001000001001000000000#25 = .ok (.cmp 4#4 1#4 2#4) := by decide
theorem test_decode_add :
    decode 0b0011000100010000100000000#25 = .ok (.add 2#4 2#4 1#4) := by decide
theorem test_decode_sub :
    decode 0b0011100110010000100000000#25 = .ok (.sub 3#4 2#4 1#4) := by decide
theorem test_decode_ori :
    decode 0b0100000100001000011110000#25 = .ok (.ori 2#4 1#4 0xF0#8) := by decide
theorem test_decode_andi :
    decode 0b0100100100001000000001111#25 = .ok (.andi 2#4 1#4 0x0F#8) := by decide
theorem test_decode_noti :
    decode 0b0101100100000000000001111#25 = .ok (.noti 2#4 0x0F#8) := by decide
theorem test_decode_cmpi :
    decode 0b0110010000011000001100100#25 = .ok (.cmpi 8#4 3#4 100#8) := by decide
theorem test_decode_addi :
    decode 0b0111000100001000001100100#25 = .ok (.addi 2#4 1#4 100#8) := by decide
theorem test_decode_subi :
    decode 0b0111111111111000011111111#25 = .ok (.subi 15#4 15#4 255#8) := by decide
theorem test_decode_brz :
    decode 0b1000000000000001100000010#25 = .ok (.brz 3#4 2#8) := by decide
theorem test_decode_bro :
    decode 0b1000100000000000100000111#25 = .ok (.bro 1#4 7#8) := by decide
theorem test_decode_mflo :
    decode 0b1001001100000000000000000#25 = .ok (.mflo 6#4) := by decide
theorem test_decode_mfhi :
    decode 0b1001001110000000000000001#25 = .ok (.mfhi 7#4) := by decide
theorem test_decode_halt :
    decode 0b1111100000000000011111111#25 = .ok (.halt 255#8) := by decide
theorem test_decode_li_is_ori :
    decode 0b0100000010000000000000101#25 = .ok (.ori 1#4 0#4 5#8) := by decide
theorem test_decode_nop_is_or :
    decode 0b0000000000000000000000000#25 = .ok (.or 0#4 0#4 0#4) := by decide
theorem test_decode_br_is_brz :
    decode 0b1000000000000000000000100#25 = .ok (.brz 0#4 4#8) := by decide
theorem test_decode_ld :
    decode 0b1100000010010000000000101#25 = .ok (.ld 0x12005#20) := by decide
theorem test_decode_st :
    decode 0x19FFFFF#25 = .ok (.st 0xFFFFF#20) := by decide

/-! Refused words beside the accepted ones (95_test_vectors.md section 2.6) -/
theorem test_reserved_imm_in_shape_r :
    decode 0x0031201#25 = .error .reserved := by decide
theorem test_reserved_ra_in_shape_r2 :
    decode 0x0321100#25 = .error .reserved := by decide
theorem test_reserved_rb_in_shape_i :
    decode 0x0810105#25 = .error .reserved := by decide
theorem test_reserved_ra_in_shape_i1 :
    decode 0x0B2100F#25 = .error .reserved := by decide
theorem test_reserved_rw_in_shape_b :
    decode 0x1010302#25 = .error .reserved := by decide
theorem test_reserved_ra_in_shape_b :
    decode 0x1001302#25 = .error .reserved := by decide
theorem test_reserved_selector_two :
    decode 0x1260002#25 = .error .reserved := by decide
theorem test_reserved_selector_255 :
    decode 0x12600FF#25 = .error .reserved := by decide
theorem test_reserved_ra_in_shape_m :
    decode 0x1261000#25 = .error .reserved := by decide
theorem test_reserved_rw_in_shape_h :
    decode 0x1F10000#25 = .error .reserved := by decide
theorem test_reserved_all_ones :
    decode 0x1FFFFFF#25 = .error .reserved := by decide
theorem test_illegal_0200000 :
    decode 0x0200000#25 = .error .illegal := by decide
theorem test_illegal_0500000 :
    decode 0x0500000#25 = .error .illegal := by decide
theorem test_illegal_0A00000 :
    decode 0x0A00000#25 = .error .illegal := by decide
theorem test_illegal_0D00000 :
    decode 0x0D00000#25 = .error .illegal := by decide
theorem test_illegal_1300000 :
    decode 0x1300000#25 = .error .illegal := by decide
theorem test_illegal_1700000 :
    decode 0x1700000#25 = .error .illegal := by decide
theorem test_illegal_1A00000 :
    decode 0x1A00000#25 = .error .illegal := by decide
theorem test_illegal_1E00000 :
    decode 0x1E00000#25 = .error .illegal := by decide

/-! Encoding (95_test_vectors.md sections 1.2 and 2.1; 46_pseudo.md R180 to R182) -/
theorem test_encode_add :
    encode (.add 2#4 2#4 1#4) = 0x0622100#25 := by decide
theorem test_encode_subi :
    encode (.subi 1#4 1#4 1#8) = 0x0F11001#25 := by decide
theorem test_encode_li :
    encode (.li 1#4 200#8) = 0x08100C8#25 := by decide
theorem test_encode_nop :
    encode (.nop) = 0x0000000#25 := by decide
theorem test_encode_br :
    encode (.br 4#8) = 0x1000004#25 := by decide
theorem test_encode_halt :
    encode (.halt 3#8) = 0x1F00003#25 := by decide
theorem test_table_word :
    decodeTableWord 25 0x0622100 = some (.add 2#4 2#4 1#4) ∧ decodeTableWord 32 0x0622100 = some (.add 2#4 2#4 1#4) := by decide
theorem test_table_word_too_long :
    decodeTableWord 32 0x2622100 = none := by decide

/-! ### One step on a small state -/

/-- A running machine at `pc` with the given slot and register values (later pairs win), Lo = A5 and Hi = 5A. -/
def machineAt (pc : Byte) (slot : Slot) (regs : List (RegNum × Byte)) : State :=
  regs.foldl (fun s p => s.writeReg p.1 p.2) { State.reset with pc := pc, slot := slot, lo := 0xA5#8, hi := 0x5A#8 }

/-- The value of `x[r]` after the step that runs the word `w` at address 5, outside a delay slot. -/
def regAfter (w : Nat) (regs : List (RegNum × Byte)) (r : RegNum) : Option Byte :=
  match step ((machineAt 5#8 .none regs).withFetchWord 25 w) with
  | .next t => some (t.readReg r)
  | .fault _ => none
  | .refused _ => none

/-- `pc` and `slot` after the step that runs the word `w`. -/
def controlAfter (w : Nat) (pc : Byte) (slot : Slot) (regs : List (RegNum × Byte)) : Option (Byte × Slot) :=
  match step ((machineAt pc slot regs).withFetchWord 25 w) with
  | .next t => some (t.pc, t.slot)
  | .fault _ => none
  | .refused _ => none

/-- The reason the step that runs the word `w` is refused. -/
def refusalAfter (w : Nat) (pc : Byte) (slot : Slot) : Option Refusal :=
  match step ((machineAt pc slot []).withFetchWord 25 w) with
  | .next _ => none
  | .fault _ => none
  | .refused r => some r


/-! Results (95_test_vectors.md sections 2.1, 2.2 and 2.4) -/
theorem test_or :
    regAfter 0x0031200 [(1#4, 0xc#8), (2#4, 0xa#8)] 3#4 = some 0x0E#8 := by decide
theorem test_or_moves :
    regAfter 0x0021000 [(1#4, 0x3c#8)] 2#4 = some 0x3C#8 := by decide
theorem test_and :
    regAfter 0x0131200 [(1#4, 0xc#8), (2#4, 0xa#8)] 3#4 = some 0x08#8 := by decide
theorem test_not :
    regAfter 0x0320100 [(1#4, 0xf#8)] 2#4 = some 0xF0#8 := by decide
theorem test_not_of_zero_register :
    regAfter 0x0350000 [] 5#4 = some 0xFF#8 := by decide
theorem test_cmp_equal_source_is_destination :
    regAfter 0x0411200 [(1#4, 0x7#8), (2#4, 0x7#8)] 1#4 = some 0x01#8 := by decide
theorem test_cmp_unequal :
    regAfter 0x0441200 [(1#4, 0x2c#8), (2#4, 0x2d#8)] 4#4 = some 0x00#8 := by decide
theorem test_add_wraps :
    regAfter 0x0622100 [(2#4, 0xc8#8), (1#4, 0x64#8)] 2#4 = some 0x2C#8 := by decide
theorem test_add_doubles :
    regAfter 0x0611100 [(1#4, 0x90#8)] 1#4 = some 0x20#8 := by decide
theorem test_sub_operand_order :
    regAfter 0x0732100 [(2#4, 0x2c#8), (1#4, 0xc8#8)] 3#4 = some 0x64#8 := by decide
theorem test_sub_negates :
    regAfter 0x0720100 [(1#4, 0x1#8)] 2#4 = some 0xFF#8 := by decide
theorem test_ori :
    regAfter 0x08210F0 [(1#4, 0xc#8)] 2#4 = some 0xFC#8 := by decide
theorem test_andi :
    regAfter 0x092100F [(1#4, 0xc8#8)] 2#4 = some 0x08#8 := by decide
theorem test_noti :
    regAfter 0x0B2000F [(2#4, 0x33#8)] 2#4 = some 0xF0#8 := by decide
theorem test_cmpi_equal :
    regAfter 0x0C83064 [(3#4, 0x64#8)] 8#4 = some 0x01#8 := by decide
theorem test_cmpi_unequal :
    regAfter 0x0C31000 [(1#4, 0x4#8)] 3#4 = some 0x00#8 := by decide
theorem test_addi_wraps :
    regAfter 0x0E21064 [(1#4, 0xc8#8)] 2#4 = some 0x2C#8 := by decide
theorem test_subi_wraps :
    regAfter 0x0F11001 [(1#4, 0x0#8)] 1#4 = some 0xFF#8 := by decide
theorem test_subi_operand_order :
    regAfter 0x0F11001 [(1#4, 0x5#8)] 1#4 = some 0x04#8 := by decide
theorem test_mflo :
    regAfter 0x1260000 [] 6#4 = some 0xA5#8 := by decide
theorem test_mfhi :
    regAfter 0x1270001 [] 7#4 = some 0x5A#8 := by decide
theorem test_li :
    regAfter 0x08100C8 [] 1#4 = some 0xC8#8 := by decide
theorem test_write_to_zero_register_ignored :
    regAfter 0x0601100 [(1#4, 0x5#8)] 0#4 = some 0x00#8 := by decide

/-! Control (95_test_vectors.md sections 2.3 and 2.5; 10_state.md R31, R32) -/
theorem test_brz_taken_on_even :
    controlAfter 0x1000302 5#8 .none [(3#4, 0xfe#8)] = some (6#8, .take 2#8) := by decide
theorem test_brz_falls_on_odd :
    controlAfter 0x1000302 5#8 .none [(3#4, 0xff#8)] = some (6#8, .fall) := by decide
theorem test_bro_taken_on_odd :
    controlAfter 0x1100107 4#8 .none [(1#4, 0x3#8)] = some (5#8, .take 7#8) := by decide
theorem test_bro_falls_on_even :
    controlAfter 0x1100107 4#8 .none [(1#4, 0x2#8)] = some (5#8, .fall) := by decide
theorem test_br_always_taken :
    controlAfter 0x10000FF 0#8 .none [] = some (1#8, .take 255#8) := by decide
theorem test_nop_in_taken_slot :
    controlAfter 0x0000000 6#8 (.take 2#8) [] = some (2#8, .none) := by decide
theorem test_nop_in_untaken_slot :
    controlAfter 0x0000000 6#8 .fall [] = some (7#8, .none) := by decide
theorem test_slot_at_255_goes_to_target :
    controlAfter 0x0E11001 255#8 (.take 3#8) [] = some (3#8, .none) := by decide
theorem test_halt_keeps_pc_and_slot :
    controlAfter 0x1F00007 255#8 (.take 3#8) [] = some (255#8, .take 3#8) := by decide
theorem test_refused_nop_at_255 :
    refusalAfter 0x0000000 255#8 .none = some .pcPastEnd := by decide
theorem test_refused_nop_at_255_in_untaken_slot :
    refusalAfter 0x0000000 255#8 .fall = some .pcPastEnd := by decide
theorem test_refused_branch_at_255 :
    refusalAfter 0x1000000 255#8 .none = some .pcPastEnd := by decide
theorem test_refused_branch_in_taken_slot :
    refusalAfter 0x1000004 1#8 (.take 3#8) = some .branchInDelaySlot := by decide
theorem test_refused_branch_in_untaken_slot_at_255 :
    refusalAfter 0x1000006 255#8 .fall = some .branchInDelaySlot := by decide
theorem test_refused_ld :
    refusalAfter 0x1812005 255#8 .fall = some .loadStoreNotDescribed := by decide
theorem test_refused_st :
    refusalAfter 0x1900000 0#8 .none = some .loadStoreNotDescribed := by decide
theorem test_refused_reserved :
    refusalAfter 0x12600FF 0#8 .none = some .reservedEncoding := by decide
theorem test_refused_illegal :
    refusalAfter 0x1300000 0#8 .none = some .illegalOpcode := by decide
theorem test_halt_exit_code :
    (match step ((machineAt 10#8 .none []).withFetchWord 25 0x1F00003) with | .next t => t.halted | .fault _ => none | .refused _ => none) = some 3#8 := by decide
theorem test_memory_canonical :
    memWrite (memWrite (memWrite [] 7 5#25) 3 9#25) 7 0#25 = [(3, 9#25)] := by decide

/-! ### Witnesses: for every statement with hypotheses, a concrete state and operands that meet all of them together -/

/-- Address 5, outside a delay slot; x[1] = 3. -/
def plain : State := machineAt 5#8 .none [(1#4, 3#8)]
/-- Address 255, in the delay slot of a branch taken to 9. -/
def lastInSlot : State := machineAt 255#8 (.take 9#8) [(1#4, 3#8)]
/-- `plain` about to run the word `w`. -/
def plainWith (w : Nat) : State := plain.withFetchWord 25 w

/-- Every operand at its greatest value. -/
theorem witness_DecodeOfEncode :
    (Instr.subi 15#4 15#4 255#8).wellFormed = true :=
  by decide
/-- SUBI r15, r15, 0xFF (95_test_vectors.md section 2.6). -/
theorem witness_EncodeOfDecode :
    ∃ i, decode 0x0FFF0FF#25 = .ok i :=
  ⟨_, rfl⟩
/-- The word of LI r1, 5. -/
theorem witness_PseudoNeverDecoded :
    ∃ i, decode 0x0810005#25 = .ok i :=
  ⟨_, rfl⟩
/-- The MFHI row and a word of it. -/
theorem witness_DecodeAgreesWithMatchAndMask :
    (Instr.mfhi 7#4).wellFormed = true ∧ 0x1270001#25 &&& (Instr.mfhi 7#4).matchMask.2 = (Instr.mfhi 7#4).matchMask.1 :=
  by decide
/-- Both sides: a blank cell, and LD just outside the blank cells. -/
theorem witness_IllegalExactlyBlankCells :
    decode 0x1E00000#25 = .error .illegal ∧ decode 0x1800000#25 ≠ .error .illegal :=
  by decide
/-- One word for each clause, and MF with selector 1 for none. -/
theorem witness_ReservedExactlyNonzeroFields :
    decode 0x00000FF#25 = .error .reserved ∧ decode 0x030F000#25 = .error .reserved ∧ decode 0x0F00F00#25 = .error .reserved ∧
    decode 0x0B00100#25 = .error .reserved ∧ decode 0x11F0000#25 = .error .reserved ∧ decode 0x1200002#25 = .error .reserved ∧
    decode 0x1F00100#25 = .error .reserved ∧ decode 0x1200001#25 ≠ .error .reserved :=
  by decide
/-- ADD at address 5. -/
theorem witness_StepRunsDecodedInstr :
    (plainWith 0x0622100).halted = none ∧ decode ((plainWith 0x0622100).ifetch (plainWith 0x0622100).pc) = .ok (.add 2#4 2#4 1#4) :=
  by decide
/-- A blank opcode at address 5. -/
theorem witness_StepRefusesUndecodedWord_illegal :
    (plainWith 0x0200000).halted = none ∧ decode ((plainWith 0x0200000).ifetch (plainWith 0x0200000).pc) = .error .illegal :=
  by decide
/-- A reserved word at address 5. -/
theorem witness_StepRefusesUndecodedWord_reserved :
    (plainWith 0x0031201).halted = none ∧ decode ((plainWith 0x0031201).ifetch (plainWith 0x0031201).pc) = .error .reserved :=
  by decide
/-- Exit code 255. -/
theorem witness_HaltedMachineHasNoStep :
    (plain.setHalted 255#8).halted = some 255#8 :=
  rfl
/-- Address 255, HALT 255. -/
theorem witness_LoadedWordRunsNext :
    Memory.wf lastInSlot.imem = true ∧ (Instr.halt 255#8).wellFormed = true :=
  by decide
/-- add r0, r1, r1 at 255 in a taken slot. -/
theorem witness_ZeroRegisterHardwired :
    (Instr.add 0#4 1#4 1#4).kind = .writer 0#4 ∧ canAdvance lastInSlot = true :=
  by decide
/-- MFLO r15. -/
theorem witness_WritersAdvance :
    (Instr.mflo 15#4).kind = .writer 15#4 ∧ canAdvance plain = true ∧ canAdvance lastInSlot = true :=
  by decide
/-- NOP at 255. -/
theorem witness_SequencePastEndRefused_writer :
    Instr.nop.kind = .writer 0#4 ∧ exec .nop { plain with pc := 255#8 } = .refused .pcPastEnd :=
  ⟨rfl, rfl⟩
/-- BR 0 at 255. -/
theorem witness_SequencePastEndRefused_branch :
    (Instr.br 0#8).kind = .branch ∧ ({ plain with pc := 255#8 } : State).slot = .none ∧ exec (.br 0#8) { plain with pc := 255#8 } = .refused .pcPastEnd :=
  ⟨rfl, rfl, rfl⟩
/-- The hypothesis of OrWritesBitwiseOr, AndWritesBitwiseAnd, NotWritesInverse, CmpWritesEquality, AddWritesSumModulo256, SubWritesDifferenceModulo256, OriWritesBitwiseOr, AndiWritesBitwiseAnd, NotiWritesInverse, CmpiWritesEquality, AddiWritesSumModulo256, SubiWritesDifferenceModulo256, MfloCopiesLo, MfhiCopiesHi, LiLoadsImmediate and NopOnlyAdvances, in each of its cases. -/
theorem witness_writers_complete :
    canAdvance plain = true ∧ canAdvance lastInSlot = true ∧ canAdvance { plain with slot := .fall, pc := 254#8 } = true :=
  by decide
/-- The hypotheses of BrzTakesOnBitZeroClear, BroTakesOnBitZeroSet and BrAlwaysTaken, at the last address they allow. -/
theorem witness_branches_complete :
    ({ plain with pc := 254#8 } : State).slot = .none ∧ ({ plain with pc := 254#8 } : State).pc ≠ 255#8 :=
  by decide
/-- BRO at 255 in a taken slot. -/
theorem witness_BranchInDelaySlotRefused :
    (Instr.bro 1#4 7#8).kind = .branch ∧ lastInSlot.slot ≠ .none :=
  by decide
/-- BR 4 at address 5 and the NOP of empty memory after it. -/
theorem witness_DelaySlotThenTarget_brz :
    ∃ t u, step (plainWith 0x1000004) = .next t ∧ step t = .next u ∧ u.halted = none ∧ decode ((plainWith 0x1000004).ifetch (plainWith 0x1000004).pc) = .ok (.brz 0#4 4#8) :=
  ⟨_, _, rfl, rfl, rfl, rfl⟩
/-- BRO r1, 7 at address 5. -/
theorem witness_DelaySlotThenTarget_bro :
    ∃ t u, step (plainWith 0x1100107) = .next t ∧ step t = .next u ∧ u.halted = none ∧ decode ((plainWith 0x1100107).ifetch (plainWith 0x1100107).pc) = .ok (.bro 1#4 7#8) :=
  ⟨_, _, rfl, rfl, rfl, rfl⟩
/-- BRO r1, 7 at address 5, taken. -/
theorem witness_DelaySlotLastsOneStep :
    ∃ t, step (plainWith 0x1100107) = .next t ∧ t.halted = none ∧ decode ((plainWith 0x1100107).ifetch (plainWith 0x1100107).pc) = .ok (.bro 1#4 7#8) ∧ t.slot ≠ .none :=
  ⟨_, rfl, rfl, rfl, by decide⟩
/-- Two steps. -/
theorem witness_LoHiAndInstructionMemoryFixed :
    ∃ t, runSteps 2 (plainWith 0x1100107) = .next t :=
  ⟨_, rfl⟩
/-- add r1, r1, r1 with x[1] = 3. -/
theorem witness_OnlyDestinationRegisterChanges :
    ∃ t, step (plainWith 0x0611100) = .next t ∧ t.readReg 1#4 ≠ (plainWith 0x0611100).readReg 1#4 :=
  ⟨_, rfl, by decide⟩
/-- ADD does not read its destination. -/
theorem witness_UnreadRegisterIsIrrelevant :
    ∃ t, (2#4 : RegNum) ∉ reads (.add 2#4 1#4 1#4) ∧ exec (.add 2#4 1#4 1#4) plain = .next t :=
  ⟨_, by decide, rfl⟩
/-- An ADD. -/
theorem witness_LoHiReachOnlyTheMoves :
    ∃ t, step (plainWith 0x0611100) = .next t ∧ (∀ rw, decode ((plainWith 0x0611100).ifetch (plainWith 0x0611100).pc) ≠ .ok (.mflo rw)) ∧ ∀ rw, decode ((plainWith 0x0611100).ifetch (plainWith 0x0611100).pc) ≠ .ok (.mfhi rw) :=
  ⟨_, rfl, by decide, by decide⟩
/-- HALT 3. -/
theorem witness_OnlyHaltHalts :
    ∃ t, step (plainWith 0x1F00003) = .next t ∧ t.halted = some 3#8 :=
  ⟨_, rfl, rfl⟩
/-- NOP at 255 in a taken slot. -/
theorem witness_PcMovesOnlyAsTheTableSays :
    ∃ t, step (lastInSlot.withFetchWord 25 0x0000000) = .next t ∧ t.halted = none :=
  ⟨_, rfl, rfl⟩
/-- Both sides of the equivalence. -/
theorem witness_NoInstructionFaults :
    step (plain.setHalted 1#8) = .fault (.halted 1#8) :=
  rfl
/-- ST at address 5; the other clauses are the tests test_refused_…. -/
theorem witness_RefusalsAreTheClosedList :
    (plainWith 0x1900000).halted = none ∧ step (plainWith 0x1900000) = .refused .loadStoreNotDescribed :=
  ⟨rfl, rfl⟩
/-- Nothing loaded. -/
theorem witness_InvariantAtReset :
    Memory.wf Config.params.imem = true :=
  rfl
/-- BR 4 at address 0 of the reset state: the invariant before and after, with a pending branch. -/
theorem witness_InvariantKeptByEveryStep :
    ∃ t, machineInv ((State.reset.loadWord 0#8 0x1000004#25)) = true ∧ step (State.reset.loadWord 0#8 0x1000004#25) = .next t ∧ t.slot = .take 4#8 ∧ machineInv t = true :=
  ⟨_, by decide, rfl, rfl, by decide⟩
/-- `n` words HALT 0 from address `a` on. -/
def haltsFrom : Nat → Nat → Memory
  | _, 0 => []
  | a, n + 1 => (a, 0x1F00000#25) :: haltsFrom (a + 1) n

theorem memRead_haltsFrom (n a b : Nat) (h1 : a ≤ b) (h2 : b < a + n) : memRead (haltsFrom a n) b = 0x1F00000#25 := by
  induction n generalizing a with
  | zero => omega
  | succ n ih =>
    simp only [haltsFrom, memRead]
    split
    · rfl
    · exact ih (a + 1) (by omega) (by omega)

theorem memWfFrom_haltsFrom (n a : Nat) (h : a + n ≤ 256) : memWfFrom a (haltsFrom a n) = true := by
  induction n generalizing a with
  | zero => rfl
  | succ n ih => exact memWfFrom_cons.2 ⟨Nat.le_refl a, by omega, by decide, ih (a + 1) (by omega)⟩

/-- Instruction memory full of HALT 0: every address passes the check. -/
def allHalt : Memory := haltsFrom 0 256

theorem textOk_allHalt : TextOk allHalt := by
  intro a
  have h : memRead allHalt a.toNat = 0x1F00000#25 := memRead_haltsFrom 256 0 a.toNat (Nat.zero_le _) (by have := a.isLt; omega)
  unfold textOkAt
  rw [h]
  rfl

theorem wf_allHalt : Memory.wf allHalt = true := memWfFrom_haltsFrom 256 0 (by omega)

/-- The reset state over that memory. -/
theorem witness_CheckedMemoryAlwaysSteps :
    TextOk allHalt ∧ machineInv (State.ofParams { Config.params with imem := allHalt }) = true ∧ (State.ofParams { Config.params with imem := allHalt }).halted = none :=
  ⟨textOk_allHalt, by simp [machineInv, slotInv, State.ofParams, wf_allHalt], rfl⟩
/-- The same memory in the parameters of reset. -/
theorem witness_CheckedMemoryRunsAreNeverRefused :
    TextOk ({ Config.params with imem := allHalt } : Params).imem ∧ Memory.wf ({ Config.params with imem := allHalt } : Params).imem = true :=
  ⟨textOk_allHalt, wf_allHalt⟩
/-- HALT 3 at address 0: the halted case of the invariant. -/
theorem witness_InvariantKeptByEveryStep_halt :
    ∃ t, machineInv (State.reset.loadWord 0#8 0x1F00003#25) = true ∧ step (State.reset.loadWord 0#8 0x1F00003#25) = .next t ∧ t.halted = some 3#8 ∧ haltIn t.imem 3#8 = true :=
  ⟨_, by decide, rfl, rfl, by decide⟩
/-- SUB. -/
theorem witness_DataPathComputesTheResult_writer :
    (Instr.sub 3#4 2#4 1#4).kind = .writer 3#4 ∧ (∀ q, Instr.sub 3#4 2#4 1#4 ≠ .mflo q) ∧ (∀ q, Instr.sub 3#4 2#4 1#4 ≠ .mfhi q) ∧ ∃ t, exec (.sub 3#4 2#4 1#4) plain = .next t :=
  ⟨rfl, by simp, by simp, _, rfl⟩
/-- BRZ. -/
theorem witness_DataPathComputesTheResult_branch :
    (Instr.brz 1#4 7#8).kind = .branch ∧ ∃ t, exec (.brz 1#4 7#8) plain = .next t :=
  ⟨rfl, _, rfl⟩
/-- An empty memory is in canonical form. -/
theorem witness_LoadThenFetch :
    Memory.wf lastInSlot.imem = true :=
  rfl
/-- Words at both ends of instruction memory. -/
theorem witness_EqualFetchesEqualMemory :
    Memory.wf [(0, 1#25), (255, 2#25)] = true ∧ ∀ a : Byte, memRead [(0, 1#25), (255, 2#25)] a.toNat = memRead [(0, 1#25), (255, 2#25)] a.toNat :=
  ⟨rfl, fun _ => rfl⟩

end Sys2Proof.Tests
end

/-! PROOF. The encoding (30_encoding.md): the number a packed word is, the words of the pseudo-instructions, and what the
decoder reports. -/

namespace Sys2Proof

/-- The upper part of an appended pattern counts `2 ^ m` times its value. -/
theorem toNat_append_eq_mul_add {n m : Nat} (x : BitVec n) (y : BitVec m) :
    (x ++ y).toNat = x.toNat * 2 ^ m + y.toNat := by
  rw [BitVec.toNat_append, ← Nat.shiftLeft_add_eq_or_of_lt y.isLt, Nat.shiftLeft_eq]

/-- The value of a word packed from its fields (R71). -/
theorem toNat_pack (op : Opcode) (rw ra rb : RegNum) (imm : Byte) :
    (pack op rw ra rb imm).toNat =
      op.toNat * 2 ^ 20 + rw.toNat * 2 ^ 16 + ra.toNat * 2 ^ 12 + rb.toNat * 2 ^ 8 + imm.toNat := by
  simp only [pack, toNat_append_eq_mul_add]
  omega

/-- Settles O2: the word is packed from its own fields, and a packed word has that value. -/
theorem wordIsItsFiveFields : Obligations.WordIsItsFiveFields := by
  intro w
  calc w.toNat = (pack (opcodeOf w) (rwOf w) (raOf w) (rbOf w) (immOf w)).toNat := by rw [pack_fields]
    _ = _ := toNat_pack ..

/-- A pseudo-instruction has the word of its expansion (46_pseudo.md R180 to R182). -/
theorem encode_expand (i : Instr) : encode i.expand = encode i := by
  cases i <;> rfl

theorem decode_encode_or (rw ra rb : RegNum) : decode (encode (.or rw ra rb)) = .ok (.or rw ra rb) := by
  have hop : opcodeOf (encode (.or rw ra rb)) = 0b00000#5 := opcodeOf_pack ..
  simp only [decode, hop]
  exact shapeR_eq_ok.mpr (by simp [encode])

theorem decode_encode_ori (rw ra : RegNum) (imm : Byte) : decode (encode (.ori rw ra imm)) = .ok (.ori rw ra imm) := by
  have hop : opcodeOf (encode (.ori rw ra imm)) = 0b01000#5 := opcodeOf_pack ..
  simp only [decode, hop]
  exact shapeI_eq_ok.mpr (by simp [encode])

theorem decode_encode_brz (rb : RegNum) (dest : Byte) : decode (encode (.brz rb dest)) = .ok (.brz rb dest) := by
  have hop : opcodeOf (encode (.brz rb dest)) = 0b10000#5 := opcodeOf_pack ..
  simp only [decode, hop]
  exact shapeB_eq_ok.mpr (by simp [encode])

/-- The decoder reports machine instructions only (R90): each cell of the opcode map is a shape that makes one of them. -/
theorem wellFormed_of_decode {w : InsWord} {i : Instr} (h : decode w = .ok i) : i.wellFormed = true := by
  unfold decode at h
  split at h
  case h_1 | h_2 | h_4 | h_5 | h_6 => obtain ⟨-, rfl⟩ := shapeR_eq_ok.mp h; rfl
  case h_3 => obtain ⟨-, rfl⟩ := shapeR2_eq_ok.mp h; rfl
  case h_7 | h_8 | h_10 | h_11 | h_12 => obtain ⟨-, rfl⟩ := shapeI_eq_ok.mp h; rfl
  case h_9 => obtain ⟨-, rfl⟩ := shapeI1_eq_ok.mp h; rfl
  case h_13 | h_14 => obtain ⟨-, rfl⟩ := shapeB_eq_ok.mp h; rfl
  case h_15 => obtain ⟨-, ⟨-, rfl⟩ | ⟨-, rfl⟩⟩ := shapeM_eq_ok.mp h <;> rfl
  case h_16 | h_17 => cases h; rfl
  case h_18 => obtain ⟨-, rfl⟩ := shapeH_eq_ok.mp h; rfl
  case h_19 => cases h

/-- Settles O5: each pseudo-instruction has the word of the machine instruction it expands to, that word decodes to it, and
whatever the decoder reports is well-formed, which no pseudo-instruction is. -/
theorem pseudoNeverDecoded : Obligations.PseudoNeverDecoded := by
  refine ⟨fun rw imm => ?li, ?nop, fun dest => ?br, fun w i h => ?reported⟩
  case li =>
    rw [← encode_expand]
    exact decode_encode_ori rw 0#4 imm
  case nop =>
    rw [← encode_expand]
    exact decode_encode_or 0#4 0#4 0#4
  case br =>
    rw [← encode_expand]
    exact decode_encode_brz 0#4 dest
  case reported =>
    have hwf : i.wellFormed = true := wellFormed_of_decode h
    refine ⟨fun rw imm hli => ?_, fun hnop => ?_, fun dest hbr => ?_⟩
    · rw [hli] at hwf; cases hwf
    · rw [hnop] at hwf; cases hwf
    · rw [hbr] at hwf; cases hwf

end Sys2Proof

/-! PROOF. The register forms that act bit by bit or compare (40_alu_register.md R100, R102, R104): the decoder on a shape-R
word, the end of a writer in the terms the claims use, and the value each instruction writes. -/

namespace Sys2Proof

/-- A word packed for a cell of shape R, its imm field 0, decodes to the instruction of that cell (30_encoding.md R72). -/
theorem decode_eq_ok_of_shapeR {op : Opcode} {mk : RegNum → RegNum → RegNum → Instr}
    (hcell : ∀ w, opcodeOf w = op → decode w = shapeR mk w) (rw ra rb : RegNum) :
    decode (pack op rw ra rb 0#8) = .ok (mk rw ra rb) := by
  rw [hcell _ (opcodeOf_pack ..)]
  exact shapeR_eq_ok.mpr (by simp)

theorem decode_encode_and (rw ra rb : RegNum) : decode (encode (.and rw ra rb)) = .ok (.and rw ra rb) :=
  decode_eq_ok_of_shapeR (fun w hop => by simp only [decode, hop]) rw ra rb

theorem decode_encode_cmp (rw ra rb : RegNum) : decode (encode (.cmp rw ra rb)) = .ok (.cmp rw ra rb) :=
  decode_eq_ok_of_shapeR (fun w hop => by simp only [decode, hop]) rw ra rb

end Sys2Proof

namespace Sys2Proof.Machine

theorem exec_or (rw ra rb : RegNum) (s : State) :
    exec (.or rw ra rb) s = writeBack rw (s.readReg ra ||| s.readReg rb) s := rfl

theorem exec_and (rw ra rb : RegNum) (s : State) :
    exec (.and rw ra rb) s = writeBack rw (s.readReg ra &&& s.readReg rb) s := rfl

theorem exec_cmp (rw ra rb : RegNum) (s : State) :
    exec (.cmp rw ra rb) s = writeBack rw (if s.readReg ra = s.readReg rb then 0x01#8 else 0x00#8) s := rfl

end Sys2Proof.Machine

namespace Sys2Proof.Safety

open Sys2Proof.Machine

/-- Where the next address exists `writeBack` completes, and writes its value to its destination and nothing else. -/
theorem writeBack_writesOnly (rw : RegNum) (v : Byte) {s : State} (h : canAdvance s = true) :
    ∃ t, writeBack rw v s = .next t ∧ WritesOnly rw v s t := by
  obtain ⟨n, hn⟩ := exists_nextPc h
  exact ⟨_, writeBack_of_nextPc hn, writesOnly_writeBack rw v s n⟩

/-- Settles O19: OR ends in `writeBack` of the bitwise OR of its two sources. -/
theorem orWritesBitwiseOr : Obligations.OrWritesBitwiseOr := by
  intro rw ra rb s
  refine ⟨decode_encode_or rw ra rb, fun hadv => ?_⟩
  rw [exec_or]
  exact writeBack_writesOnly rw _ hadv

/-- Settles O20: AND ends in `writeBack` of the bitwise AND of its two sources. -/
theorem andWritesBitwiseAnd : Obligations.AndWritesBitwiseAnd := by
  intro rw ra rb s
  refine ⟨decode_encode_and rw ra rb, fun hadv => ?_⟩
  rw [exec_and]
  exact writeBack_writesOnly rw _ hadv

/-- Settles O22: CMP ends in `writeBack` of 1 when its two sources are the same pattern and of 0 when they are not. -/
theorem cmpWritesEquality : Obligations.CmpWritesEquality := by
  intro rw ra rb s
  refine ⟨decode_encode_cmp rw ra rb, fun hadv => ?_⟩
  rw [exec_cmp]
  exact writeBack_writesOnly rw _ hadv

end Sys2Proof.Safety

/-! PROOF. The immediate forms that act bit by bit or compare (41_alu_immediate.md R120, R122, R124, R125): the decoder on a
word of shape I or I1, and the value each instruction writes. -/

namespace Sys2Proof

/-- A word packed for a cell of shape I, its rb field 0, decodes to the instruction of that cell (30_encoding.md R72). -/
theorem decode_eq_ok_of_shapeI {op : Opcode} {mk : RegNum → RegNum → Byte → Instr}
    (hcell : ∀ w, opcodeOf w = op → decode w = shapeI mk w) (rw ra : RegNum) (imm : Byte) :
    decode (pack op rw ra 0#4 imm) = .ok (mk rw ra imm) := by
  rw [hcell _ (opcodeOf_pack ..)]
  exact shapeI_eq_ok.mpr (by simp)

theorem decode_encode_andi (rw ra : RegNum) (imm : Byte) :
    decode (encode (.andi rw ra imm)) = .ok (.andi rw ra imm) :=
  decode_eq_ok_of_shapeI (fun w hop => by simp only [decode, hop]) rw ra imm

theorem decode_encode_cmpi (rw ra : RegNum) (imm : Byte) :
    decode (encode (.cmpi rw ra imm)) = .ok (.cmpi rw ra imm) :=
  decode_eq_ok_of_shapeI (fun w hop => by simp only [decode, hop]) rw ra imm

/-- NOTI is the one cell of shape I1: its ra and rb fields are 0 (30_encoding.md R72). -/
theorem decode_encode_noti (rw : RegNum) (imm : Byte) : decode (encode (.noti rw imm)) = .ok (.noti rw imm) := by
  have hop : opcodeOf (encode (.noti rw imm)) = 0b01011#5 := opcodeOf_pack ..
  simp only [decode, hop]
  exact shapeI1_eq_ok.mpr (by simp [encode])

end Sys2Proof

namespace Sys2Proof.Machine

/-- The bitwise inverse of a byte is its distance from 255 (R125). -/
theorem notResult_eq_ofNat_sub (b : Byte) : notResult b = BitVec.ofNat 8 (255 - b.toNat) := by
  apply BitVec.eq_of_toNat_eq
  rw [notResult, BitVec.toNat_not, BitVec.toNat_ofNat]
  omega

theorem exec_ori (rw ra : RegNum) (imm : Byte) (s : State) :
    exec (.ori rw ra imm) s = writeBack rw (s.readReg ra ||| imm) s := rfl

theorem exec_andi (rw ra : RegNum) (imm : Byte) (s : State) :
    exec (.andi rw ra imm) s = writeBack rw (s.readReg ra &&& imm) s := rfl

/-- NOTI reads no register: its result is that of the immediate alone. -/
theorem exec_noti (rw : RegNum) (imm : Byte) (s : State) :
    exec (.noti rw imm) s = writeBack rw (notResult imm) s := rfl

theorem exec_cmpi (rw ra : RegNum) (imm : Byte) (s : State) :
    exec (.cmpi rw ra imm) s = writeBack rw (if s.readReg ra = imm then 0x01#8 else 0x00#8) s := rfl

end Sys2Proof.Machine

namespace Sys2Proof.Safety

open Sys2Proof.Machine

/-- An instruction that ends in `writeBack` completes where the next address exists, and writes that value only. -/
theorem writesOnly_of_exec_eq_writeBack {i : Instr} {rw : RegNum} {v : Byte} {s : State}
    (hexec : exec i s = writeBack rw v s) (h : canAdvance s = true) :
    ∃ t, exec i s = .next t ∧ WritesOnly rw v s t := by
  rw [hexec]
  exact writeBack_writesOnly rw v h

/-- Settles O25: ORI ends in `writeBack` of the bitwise OR of its source and the immediate. -/
theorem oriWritesBitwiseOr : Obligations.OriWritesBitwiseOr := fun rw ra imm s =>
  ⟨decode_encode_ori rw ra imm, writesOnly_of_exec_eq_writeBack (exec_ori rw ra imm s)⟩

/-- Settles O26: ANDI ends in `writeBack` of the bitwise AND of its source and the immediate. -/
theorem andiWritesBitwiseAnd : Obligations.AndiWritesBitwiseAnd := fun rw ra imm s =>
  ⟨decode_encode_andi rw ra imm, writesOnly_of_exec_eq_writeBack (exec_andi rw ra imm s)⟩

/-- Settles O27: NOTI ends in `writeBack` of the inverse of the immediate, which is 255 less the immediate. -/
theorem notiWritesInverse : Obligations.NotiWritesInverse := by
  intro rw imm s
  refine ⟨decode_encode_noti rw imm, ?_⟩
  rw [← notResult_eq_ofNat_sub]
  exact writesOnly_of_exec_eq_writeBack (exec_noti rw imm s)

/-- Settles O28: CMPI ends in `writeBack` of 1 when its source is the immediate and of 0 when it is not. -/
theorem cmpiWritesEquality : Obligations.CmpiWritesEquality := fun rw ra imm s =>
  ⟨decode_encode_cmpi rw ra imm, writesOnly_of_exec_eq_writeBack (exec_cmpi rw ra imm s)⟩

end Sys2Proof.Safety

/-! PROOF. LD and ST (44_load_store.md R162): the decoder on a word of shape U, and the refusal that both share. -/

namespace Sys2Proof

/-- A word of a cell of shape U decodes to the instruction of that cell, whatever its 20 remaining bits
(30_encoding.md R72, R85). -/
theorem decode_eq_ok_of_shapeU {op : Opcode} {mk : BitVec 20 → Instr}
    (hcell : ∀ w, opcodeOf w = op → decode w = .ok (mk (restOf w))) (rest : BitVec 20) :
    decode (op ++ rest) = .ok (mk rest) := by
  rw [hcell _ (opcodeOf_append op rest), restOf_append]

theorem decode_encode_ld (rest : BitVec 20) : decode (encode (.ld rest)) = .ok (.ld rest) :=
  decode_eq_ok_of_shapeU (fun w hop => by simp only [decode, hop]) rest

theorem decode_encode_st (rest : BitVec 20) : decode (encode (.st rest)) = .ok (.st rest) :=
  decode_eq_ok_of_shapeU (fun w hop => by simp only [decode, hop]) rest

end Sys2Proof

namespace Sys2Proof.Safety

open Sys2Proof.Machine

/-- Settles O39: the opcode alone selects LD or ST, and an instruction of their kind is refused in every state. -/
theorem loadStoreAlwaysRefused : Obligations.LoadStoreAlwaysRefused := fun rest s =>
  ⟨decode_encode_ld rest, exec_loadStore (i := .ld rest) rfl s, decode_encode_st rest, exec_loadStore (i := .st rest) rfl s⟩

end Sys2Proof.Safety

/-! PROOF. LI (46_pseudo.md R180, R183): a pseudo-instruction acts as its expansion, and the word and the value of LI. -/

namespace Sys2Proof

/-- The word of LI as a number (R180): that of its fields, of which ra and rb are 0. -/
theorem toNat_encode_li (rw : RegNum) (imm : Byte) :
    (encode (.li rw imm)).toNat = 0x0800000 + rw.toNat * 0x10000 + imm.toNat := by
  rw [encode, toNat_pack]
  simp

end Sys2Proof

namespace Sys2Proof.Machine

/-- A pseudo-instruction acts as the machine instruction it expands to (R183). -/
theorem exec_expand (i : Instr) (s : State) : exec i.expand s = exec i s := by
  cases i <;> rfl

/-- LI writes its immediate: register 0, the source of its expansion, reads 0 (R180). -/
theorem exec_li (rw : RegNum) (imm : Byte) (s : State) : exec (.li rw imm) s = writeBack rw imm s :=
  calc exec (.li rw imm) s = exec (.ori rw 0#4 imm) s := (exec_expand (.li rw imm) s).symm
    _ = writeBack rw (s.readReg 0#4 ||| imm) s := exec_ori rw 0#4 imm s
    _ = writeBack rw imm s := by rw [readReg_zero, BitVec.zero_or]

end Sys2Proof.Machine

namespace Sys2Proof.Safety

open Sys2Proof.Machine

/-- Settles O33: LI shares word and meaning with its expansion, and ends in `writeBack` of the immediate. -/
theorem liLoadsImmediate : Obligations.LiLoadsImmediate := fun rw imm s =>
  ⟨toNat_encode_li rw imm, (encode_expand (.li rw imm)).symm, (exec_expand (.li rw imm) s).symm,
    writesOnly_of_exec_eq_writeBack (exec_li rw imm s)⟩

end Sys2Proof.Safety

/-! PROOF. The encoder and the decoder are inverse (30_encoding.md sections 3 and 4): the cells that no instruction's own
claim has read yet, the round trip from an instruction, and the round trip from an accepted word. -/

namespace Sys2Proof

theorem decode_encode_add (rw ra rb : RegNum) : decode (encode (.add rw ra rb)) = .ok (.add rw ra rb) :=
  decode_eq_ok_of_shapeR (fun w hop => by simp only [decode, hop]) rw ra rb

theorem decode_encode_sub (rw ra rb : RegNum) : decode (encode (.sub rw ra rb)) = .ok (.sub rw ra rb) :=
  decode_eq_ok_of_shapeR (fun w hop => by simp only [decode, hop]) rw ra rb

/-- NOT is the one cell of shape R2: its ra and imm fields are 0 (30_encoding.md R72). -/
theorem decode_encode_not (rw rb : RegNum) : decode (encode (.not rw rb)) = .ok (.not rw rb) := by
  have hop : opcodeOf (encode (.not rw rb)) = 0b00011#5 := opcodeOf_pack ..
  simp only [decode, hop]
  exact shapeR2_eq_ok.mpr (by simp [encode])

theorem decode_encode_addi (rw ra : RegNum) (imm : Byte) :
    decode (encode (.addi rw ra imm)) = .ok (.addi rw ra imm) :=
  decode_eq_ok_of_shapeI (fun w hop => by simp only [decode, hop]) rw ra imm

theorem decode_encode_subi (rw ra : RegNum) (imm : Byte) :
    decode (encode (.subi rw ra imm)) = .ok (.subi rw ra imm) :=
  decode_eq_ok_of_shapeI (fun w hop => by simp only [decode, hop]) rw ra imm

theorem decode_encode_bro (rb : RegNum) (dest : Byte) : decode (encode (.bro rb dest)) = .ok (.bro rb dest) := by
  have hop : opcodeOf (encode (.bro rb dest)) = 0b10001#5 := opcodeOf_pack ..
  simp only [decode, hop]
  exact shapeB_eq_ok.mpr (by simp [encode])

/-- The cell MF with selector 0 (30_encoding.md R84). -/
theorem decode_encode_mflo (rw : RegNum) : decode (encode (.mflo rw)) = .ok (.mflo rw) := by
  have hop : opcodeOf (encode (.mflo rw)) = 0b10010#5 := opcodeOf_pack ..
  simp only [decode, hop]
  exact shapeM_eq_ok.mpr (by simp [encode])

/-- The cell MF with selector 1 (30_encoding.md R84). -/
theorem decode_encode_mfhi (rw : RegNum) : decode (encode (.mfhi rw)) = .ok (.mfhi rw) := by
  have hop : opcodeOf (encode (.mfhi rw)) = 0b10010#5 := opcodeOf_pack ..
  simp only [decode, hop]
  exact shapeM_eq_ok.mpr (by simp [encode])

/-- HALT is the one cell of shape H: only its imm field is free (30_encoding.md R72). -/
theorem decode_encode_halt (code : Byte) : decode (encode (.halt code)) = .ok (.halt code) := by
  have hop : opcodeOf (encode (.halt code)) = 0b11111#5 := opcodeOf_pack ..
  simp only [decode, hop]
  exact shapeH_eq_ok.mpr (by simp [encode])

/-- The decoder reads back every machine instruction from its word. -/
theorem decode_encode {i : Instr} (h : i.wellFormed = true) : decode (encode i) = .ok i := by
  cases i with
  | or rw ra rb => exact decode_encode_or rw ra rb
  | and rw ra rb => exact decode_encode_and rw ra rb
  | not rw rb => exact decode_encode_not rw rb
  | cmp rw ra rb => exact decode_encode_cmp rw ra rb
  | add rw ra rb => exact decode_encode_add rw ra rb
  | sub rw ra rb => exact decode_encode_sub rw ra rb
  | ori rw ra imm => exact decode_encode_ori rw ra imm
  | andi rw ra imm => exact decode_encode_andi rw ra imm
  | noti rw imm => exact decode_encode_noti rw imm
  | cmpi rw ra imm => exact decode_encode_cmpi rw ra imm
  | addi rw ra imm => exact decode_encode_addi rw ra imm
  | subi rw ra imm => exact decode_encode_subi rw ra imm
  | brz rb dest => exact decode_encode_brz rb dest
  | bro rb dest => exact decode_encode_bro rb dest
  | mflo rw => exact decode_encode_mflo rw
  | mfhi rw => exact decode_encode_mfhi rw
  | ld rest => exact decode_encode_ld rest
  | st rest => exact decode_encode_st rest
  | halt code => exact decode_encode_halt code
  | li | nop | br => cases h

/-- Settles O3: row by row, the cell of the opcode map that the word's opcode selects accepts the word. -/
theorem decodeOfEncode : Obligations.DecodeOfEncode := fun _ => decode_encode

/-- A word whose five fields are known is the word packed from them (30_encoding.md R71). -/
theorem pack_eq_of_fields {w : InsWord} {op : Opcode} {rw ra rb : RegNum} {imm : Byte} (hop : opcodeOf w = op)
    (hrw : rwOf w = rw) (hra : raOf w = ra) (hrb : rbOf w = rb) (himm : immOf w = imm) : pack op rw ra rb imm = w := by
  subst hop hrw hra hrb himm
  exact pack_fields w

/-- An accepted word is the word of what it decodes to: each field is an operand, or drawn as 0 and checked. -/
theorem encode_of_decode {w : InsWord} {i : Instr} (h : decode w = .ok i) : encode i = w := by
  unfold decode at h
  split at h
  case h_1 hop | h_2 hop | h_4 hop | h_5 hop | h_6 hop =>
    obtain ⟨himm, rfl⟩ := shapeR_eq_ok.mp h
    exact pack_eq_of_fields hop rfl rfl rfl himm
  case h_3 hop =>
    obtain ⟨⟨hra, himm⟩, rfl⟩ := shapeR2_eq_ok.mp h
    exact pack_eq_of_fields hop rfl hra rfl himm
  case h_7 hop | h_8 hop | h_10 hop | h_11 hop | h_12 hop =>
    obtain ⟨hrb, rfl⟩ := shapeI_eq_ok.mp h
    exact pack_eq_of_fields hop rfl rfl hrb rfl
  case h_9 hop =>
    obtain ⟨⟨hra, hrb⟩, rfl⟩ := shapeI1_eq_ok.mp h
    exact pack_eq_of_fields hop rfl hra hrb rfl
  case h_13 hop | h_14 hop =>
    obtain ⟨⟨hrw, hra⟩, rfl⟩ := shapeB_eq_ok.mp h
    exact pack_eq_of_fields hop hrw hra rfl rfl
  case h_15 hop =>
    obtain ⟨⟨hra, hrb⟩, ⟨himm, rfl⟩ | ⟨himm, rfl⟩⟩ := shapeM_eq_ok.mp h
    · exact pack_eq_of_fields hop rfl hra hrb himm
    · exact pack_eq_of_fields hop rfl hra hrb himm
  case h_16 hop | h_17 hop =>
    obtain rfl := Except.ok.inj h
    rw [encode, ← hop]
    exact append_fields w
  case h_18 hop =>
    obtain ⟨⟨⟨hrw, hra⟩, hrb⟩, rfl⟩ := shapeH_eq_ok.mp h
    exact pack_eq_of_fields hop hrw hra hrb rfl
  case h_19 => cases h

/-- Settles O4: the decoder reports machine instructions only, and checks or keeps every field of the word. -/
theorem encodeOfDecode : Obligations.EncodeOfDecode := fun _ _ h => ⟨wellFormed_of_decode h, encode_of_decode h⟩

end Sys2Proof

/-! PROOF. The words of a row (30_encoding.md section 4, R82): the mask of every row takes each field of a word whole or
not at all, so a word matches a row when it is the word of the row's instruction with its own operands; and the words of a
row are counted field by field. -/

namespace Sys2Proof

/-- A field that the mask takes whole is fixed by the match. -/
theorem eq_of_and_allOnes {n : Nat} {v m r c : BitVec n} (h : v &&& m = r) (hfix : m = BitVec.allOnes n ∧ r = c) :
    v = c := by
  obtain ⟨rfl, rfl⟩ := hfix
  rw [← h, BitVec.and_allOnes]

/-- A word matches a row when each of its fields does. -/
theorem and_eq_iff_fields {w mask row : InsWord} : w &&& mask = row ↔
    opcodeOf w &&& opcodeOf mask = opcodeOf row ∧ rwOf w &&& rwOf mask = rwOf row ∧ raOf w &&& raOf mask = raOf row ∧
      rbOf w &&& rbOf mask = rbOf row ∧ immOf w &&& immOf mask = immOf row := by
  constructor
  · rintro rfl
    exact ⟨(opcodeOf_and ..).symm, (rwOf_and ..).symm, (raOf_and ..).symm, (rbOf_and ..).symm, (immOf_and ..).symm⟩
  · rintro ⟨hop, hrw, hra, hrb, himm⟩
    rw [← pack_fields w]
    exact pack_and_eq hop hrw hra hrb himm

/-- The instruction of the same row with the operands that the fields of `w` give. -/
def Instr.withOperandsOf (w : InsWord) : Instr → Instr
  | .or _ _ _ => .or (rwOf w) (raOf w) (rbOf w)
  | .and _ _ _ => .and (rwOf w) (raOf w) (rbOf w)
  | .not _ _ => .not (rwOf w) (rbOf w)
  | .cmp _ _ _ => .cmp (rwOf w) (raOf w) (rbOf w)
  | .add _ _ _ => .add (rwOf w) (raOf w) (rbOf w)
  | .sub _ _ _ => .sub (rwOf w) (raOf w) (rbOf w)
  | .ori _ _ _ => .ori (rwOf w) (raOf w) (immOf w)
  | .andi _ _ _ => .andi (rwOf w) (raOf w) (immOf w)
  | .noti _ _ => .noti (rwOf w) (immOf w)
  | .cmpi _ _ _ => .cmpi (rwOf w) (raOf w) (immOf w)
  | .addi _ _ _ => .addi (rwOf w) (raOf w) (immOf w)
  | .subi _ _ _ => .subi (rwOf w) (raOf w) (immOf w)
  | .brz _ _ => .brz (rbOf w) (immOf w)
  | .bro _ _ => .bro (rbOf w) (immOf w)
  | .mflo _ => .mflo (rwOf w)
  | .mfhi _ => .mfhi (rwOf w)
  | .ld _ => .ld (restOf w)
  | .st _ => .st (restOf w)
  | .halt _ => .halt (immOf w)
  | .li _ _ => .li (rwOf w) (immOf w)
  | .nop => .nop
  | .br _ => .br (immOf w)

@[simp] theorem matchMask_withOperandsOf (w : InsWord) (i : Instr) : (i.withOperandsOf w).matchMask = i.matchMask := by
  cases i <;> rfl

@[simp] theorem wellFormed_withOperandsOf (w : InsWord) (i : Instr) :
    (i.withOperandsOf w).wellFormed = i.wellFormed := by
  cases i <;> rfl

/-- A word that matches a machine row is the word of the row's instruction with its own operands: the fields that are no
operand of the row are under the mask. -/
theorem encode_withOperandsOf {w : InsWord} {i : Instr} (hwf : i.wellFormed = true)
    (h : w &&& i.matchMask.2 = i.matchMask.1) : encode (i.withOperandsOf w) = w := by
  obtain ⟨hop, hrw, hra, hrb, himm⟩ := and_eq_iff_fields.mp h
  cases i <;> simp only [Instr.matchMask] at hop hrw hra hrb himm
  case or | and | cmp | add | sub =>
    exact pack_eq_of_fields (eq_of_and_allOnes hop (by decide)) rfl rfl rfl (eq_of_and_allOnes himm (by decide))
  case not =>
    exact pack_eq_of_fields (eq_of_and_allOnes hop (by decide)) rfl (eq_of_and_allOnes hra (by decide)) rfl
      (eq_of_and_allOnes himm (by decide))
  case ori | andi | cmpi | addi | subi =>
    exact pack_eq_of_fields (eq_of_and_allOnes hop (by decide)) rfl rfl (eq_of_and_allOnes hrb (by decide)) rfl
  case noti =>
    exact pack_eq_of_fields (eq_of_and_allOnes hop (by decide)) rfl (eq_of_and_allOnes hra (by decide))
      (eq_of_and_allOnes hrb (by decide)) rfl
  case brz | bro =>
    exact pack_eq_of_fields (eq_of_and_allOnes hop (by decide)) (eq_of_and_allOnes hrw (by decide))
      (eq_of_and_allOnes hra (by decide)) rfl rfl
  case mflo | mfhi =>
    exact pack_eq_of_fields (eq_of_and_allOnes hop (by decide)) rfl (eq_of_and_allOnes hra (by decide))
      (eq_of_and_allOnes hrb (by decide)) (eq_of_and_allOnes himm (by decide))
  case ld =>
    have : opcodeOf w = 0b11000#5 := eq_of_and_allOnes hop (by decide)
    rw [Instr.withOperandsOf, encode, ← this, append_fields]
  case st =>
    have : opcodeOf w = 0b11001#5 := eq_of_and_allOnes hop (by decide)
    rw [Instr.withOperandsOf, encode, ← this, append_fields]
  case halt =>
    exact pack_eq_of_fields (eq_of_and_allOnes hop (by decide)) (eq_of_and_allOnes hrw (by decide))
      (eq_of_and_allOnes hra (by decide)) (eq_of_and_allOnes hrb (by decide)) rfl
  case li | nop | br => cases hwf

/-- The word of a machine instruction matches its row. -/
theorem encode_and_mask {i : Instr} (h : i.wellFormed = true) : encode i &&& i.matchMask.2 = i.matchMask.1 := by
  cases i with
  | or rw ra rb => exact Laws.MatchMask.or rw ra rb
  | and rw ra rb => exact Laws.MatchMask.and rw ra rb
  | not rw rb => exact Laws.MatchMask.not rw rb
  | cmp rw ra rb => exact Laws.MatchMask.cmp rw ra rb
  | add rw ra rb => exact Laws.MatchMask.add rw ra rb
  | sub rw ra rb => exact Laws.MatchMask.sub rw ra rb
  | ori rw ra imm => exact Laws.MatchMask.ori rw ra imm
  | andi rw ra imm => exact Laws.MatchMask.andi rw ra imm
  | noti rw imm => exact Laws.MatchMask.noti rw imm
  | cmpi rw ra imm => exact Laws.MatchMask.cmpi rw ra imm
  | addi rw ra imm => exact Laws.MatchMask.addi rw ra imm
  | subi rw ra imm => exact Laws.MatchMask.subi rw ra imm
  | brz rb dest => exact Laws.MatchMask.brz rb dest
  | bro rb dest => exact Laws.MatchMask.bro rb dest
  | mflo rw => exact Laws.MatchMask.mflo rw
  | mfhi rw => exact Laws.MatchMask.mfhi rw
  | ld rest => exact Laws.MatchMask.ld rest
  | st rest => exact Laws.MatchMask.st rest
  | halt code => exact Laws.MatchMask.halt code
  | li | nop | br => cases h

/-- Settles O6: an accepted word is the word of what it decodes to, which matches its row; a word that matches a row is
that of an instruction of the row, which the decoder reads back. -/
theorem decodeAgreesWithMatchAndMask : Obligations.DecodeAgreesWithMatchAndMask := by
  intro w i hwf
  constructor
  · rintro ⟨j, hj, hrow⟩
    rw [← encode_of_decode hj, ← hrow]
    exact encode_and_mask (wellFormed_of_decode hj)
  · intro h
    refine ⟨i.withOperandsOf w, ?_, matchMask_withOperandsOf w i⟩
    have hdec := decode_encode ((wellFormed_withOperandsOf w i).trans hwf)
    rwa [encode_withOperandsOf hwf h] at hdec

/-! ### Counting the words of a row -/

/-- A word as the tuple of its fields (R71). -/
def fieldsEquiv : InsWord ≃ Opcode × RegNum × RegNum × RegNum × Byte where
  toFun w := (opcodeOf w, rwOf w, raOf w, rbOf w, immOf w)
  invFun f := pack f.1 f.2.1 f.2.2.1 f.2.2.2.1 f.2.2.2.2
  left_inv := pack_fields
  right_inv f := by simp

/-- The mask takes a field whole, or not at all and then the match has 0 there. -/
def WholeField {n : Nat} (m r : BitVec n) : Bool := m == BitVec.allOnes n || (m == 0#n && r == 0#n)

/-- How many values a field has under a mask that takes it whole or not at all. -/
def fieldCount {n : Nat} (m : BitVec n) : Nat := if m = BitVec.allOnes n then 1 else 2 ^ n

theorem card_bitVec (n : Nat) : Nat.card (BitVec n) = 2 ^ n := by
  rw [Nat.card_eq_fintype_card, ← FinEnum.card_eq_fintypeCard, FinEnum.card_bitVec]

/-- The patterns that match `r` under the mask `m`. -/
def matching {n : Nat} (m r : BitVec n) : Set (BitVec n) := {v | v &&& m = r}

theorem ncard_matching {n : Nat} {m r : BitVec n} (h : WholeField m r = true) : (matching m r).ncard = fieldCount m := by
  unfold matching fieldCount
  split
  case isTrue hm =>
    subst hm
    simp
  case isFalse hm =>
    obtain ⟨rfl, rfl⟩ : m = 0#n ∧ r = 0#n := by simpa [WholeField, hm] using h
    rw [← card_bitVec n]
    simp [Set.ncard_univ]

/-- The mask of a row takes each of the five fields whole or not at all. -/
def WholeFields (mask row : InsWord) : Bool :=
  WholeField (opcodeOf mask) (opcodeOf row) && WholeField (rwOf mask) (rwOf row) && WholeField (raOf mask) (raOf row) &&
    WholeField (rbOf mask) (rbOf row) && WholeField (immOf mask) (immOf row)

/-- How many words match a row: the product over the fields. -/
def wordCount (mask : InsWord) : Nat :=
  fieldCount (opcodeOf mask) * (fieldCount (rwOf mask) * (fieldCount (raOf mask) * (fieldCount (rbOf mask) *
    fieldCount (immOf mask))))

theorem card_matching_word {mask row : InsWord} (h : WholeFields mask row = true) :
    Nat.card {w : InsWord // w &&& mask = row} = wordCount mask := by
  simp only [WholeFields, Bool.and_eq_true] at h
  obtain ⟨⟨⟨⟨hop, hrw⟩, hra⟩, hrb⟩, himm⟩ := h
  calc Nat.card {w : InsWord // w &&& mask = row}
      = Nat.card (matching (opcodeOf mask) (opcodeOf row) ×ˢ matching (rwOf mask) (rwOf row) ×ˢ
          matching (raOf mask) (raOf row) ×ˢ matching (rbOf mask) (rbOf row) ×ˢ matching (immOf mask) (immOf row)) :=
        Nat.card_congr (fieldsEquiv.subtypeEquiv fun _ => and_eq_iff_fields)
    _ = wordCount mask := by
        simp only [Nat.card_coe_set_eq, Set.ncard_prod, ncard_matching, wordCount, *]

/-- An instruction of every machine row, and the number of bits the words of the row leave free (30_encoding.md section 5).
-/
def rowBits : List (Instr × Nat) :=
  [(.or 0#4 0#4 0#4, 12), (.and 0#4 0#4 0#4, 12), (.not 0#4 0#4, 8), (.cmp 0#4 0#4 0#4, 12), (.add 0#4 0#4 0#4, 12),
    (.sub 0#4 0#4 0#4, 12), (.ori 0#4 0#4 0#8, 16), (.andi 0#4 0#4 0#8, 16), (.noti 0#4 0#8, 12), (.cmpi 0#4 0#4 0#8, 16),
    (.addi 0#4 0#4 0#8, 16), (.subi 0#4 0#4 0#8, 16), (.brz 0#4 0#8, 12), (.bro 0#4 0#8, 12), (.mflo 0#4, 4), (.mfhi 0#4, 4),
    (.ld 0#20, 20), (.st 0#20, 20), (.halt 0#8, 8)]

theorem rowBits_wellFormed : ∀ c ∈ rowBits, c.1.wellFormed = true := by decide

theorem rowBits_wholeFields : ∀ c ∈ rowBits, WholeFields c.1.matchMask.2 c.1.matchMask.1 = true := by decide

theorem rowBits_wordCount : ∀ c ∈ rowBits, wordCount c.1.matchMask.2 = 2 ^ c.2 := by decide

theorem exists_rowBits_of_wellFormed {i : Instr} (h : i.wellFormed = true) :
    ∃ c ∈ rowBits, c.1.matchMask = i.matchMask := by
  cases i with
  | li | nop | br => cases h
  | _ => simp only [Instr.matchMask]; decide

/-- The number of words that decode to an instruction of a row. -/
theorem card_decode_row {c : Instr × Nat} (hc : c ∈ rowBits) :
    Nat.card {w : InsWord // ∃ j, decode w = .ok j ∧ j.matchMask = c.1.matchMask} = 2 ^ c.2 := by
  rw [← rowBits_wordCount c hc, ← card_matching_word (rowBits_wholeFields c hc)]
  exact Nat.card_congr (Equiv.subtypeEquivRight fun w => decodeAgreesWithMatchAndMask w c.1 (rowBits_wellFormed c hc))

/-- The row of the instruction a word decodes to. -/
def rowOf (w : InsWord) : Option (InsWord × InsWord) := (decode w).toOption.map Instr.matchMask

theorem rowOf_eq_some_iff {w : InsWord} {r : InsWord × InsWord} :
    rowOf w = some r ↔ ∃ j, decode w = .ok j ∧ j.matchMask = r := by
  unfold rowOf
  cases decode w <;> simp [Except.toOption]

/-- The machine rows of the table (R82). -/
def rows : List (Option (InsWord × InsWord)) := rowBits.map fun c => some c.1.matchMask

theorem accepted_iff_rowOf_mem {w : InsWord} : (∃ j, decode w = .ok j) ↔ rowOf w ∈ rows.toFinset := by
  simp only [rows, List.mem_toFinset, List.mem_map]
  constructor
  · rintro ⟨j, hj⟩
    obtain ⟨c, hc, hrow⟩ := exists_rowBits_of_wellFormed (wellFormed_of_decode hj)
    exact ⟨c, hc, (rowOf_eq_some_iff.mpr ⟨j, hj, hrow.symm⟩).symm⟩
  · rintro ⟨c, -, hrow⟩
    obtain ⟨j, hj, -⟩ := rowOf_eq_some_iff.mp hrow.symm
    exact ⟨j, hj⟩

/-- The points that a map takes into a finite set are counted fibre by fibre. -/
theorem card_subtype_mem_eq_sum {α β : Type} [Fintype α] [DecidableEq β] (f : α → β) (T : Finset β) :
    Nat.card {a // f a ∈ T} = ∑ b ∈ T, Nat.card {a // f a = b} := by
  simp only [Nat.card_eq_fintype_card, Fintype.card_subtype]
  rw [Finset.card_eq_sum_card_fiberwise (f := f) (t := T) (fun a ha => by simpa using ha)]
  refine Finset.sum_congr rfl fun b hb => ?_
  congr 1
  ext a
  simp only [Finset.mem_filter, Finset.mem_univ, true_and]
  exact ⟨fun h => h.2, fun h => ⟨h ▸ hb, h⟩⟩

/-- Settles O10: the fields that a row's mask does not take are free, and an accepted word is of exactly one row. -/
theorem acceptedWordCounts : Obligations.AcceptedWordCounts := by
  refine ⟨fun c hc => card_decode_row hc, ?_⟩
  calc Nat.card {w : InsWord // ∃ j, decode w = .ok j}
      = Nat.card {w : InsWord // rowOf w ∈ rows.toFinset} :=
        Nat.card_congr (Equiv.subtypeEquivRight fun _ => accepted_iff_rowOf_mem)
    _ = ∑ r ∈ rows.toFinset, Nat.card {w : InsWord // rowOf w = r} := card_subtype_mem_eq_sum rowOf _
    _ = (rows.map fun r => Nat.card {w : InsWord // rowOf w = r}).sum := List.sum_toFinset _ (by decide)
    _ = (rowBits.map fun c => 2 ^ c.2).sum := by
        rw [rows, List.map_map]
        congr 1
        refine List.map_congr_left fun c hc => ?_
        rw [← card_decode_row hc]
        exact Nat.card_congr (Equiv.subtypeEquivRight fun _ => rowOf_eq_some_iff)
    _ = 2458144 := by decide

end Sys2Proof

/-! PROOF. The words that are no instruction (30_encoding.md sections 1, 4 and 5), the regularities of the opcode map
(section 3), and words written out from the figures. -/

namespace Sys2Proof

/-! ### What each shape refuses: a field drawn as 0 that is not 0, and nothing as illegal (R81) -/

theorem shapeR_eq_error {mk : RegNum → RegNum → RegNum → Instr} {w : InsWord} {e : DecodeReject} :
    shapeR mk w = .error e ↔ immOf w ≠ 0#8 ∧ e = .reserved := by
  simp [shapeR]

theorem shapeR2_eq_error {mk : RegNum → RegNum → Instr} {w : InsWord} {e : DecodeReject} :
    shapeR2 mk w = .error e ↔ (raOf w ≠ 0#4 ∨ immOf w ≠ 0#8) ∧ e = .reserved := by
  simp only [shapeR2, whenZero_eq_error, Bool.and_eq_false_iff, beq_eq_false_iff_ne]

theorem shapeI_eq_error {mk : RegNum → RegNum → Byte → Instr} {w : InsWord} {e : DecodeReject} :
    shapeI mk w = .error e ↔ rbOf w ≠ 0#4 ∧ e = .reserved := by
  simp [shapeI]

theorem shapeI1_eq_error {mk : RegNum → Byte → Instr} {w : InsWord} {e : DecodeReject} :
    shapeI1 mk w = .error e ↔ (raOf w ≠ 0#4 ∨ rbOf w ≠ 0#4) ∧ e = .reserved := by
  simp only [shapeI1, whenZero_eq_error, Bool.and_eq_false_iff, beq_eq_false_iff_ne]

theorem shapeB_eq_error {mk : RegNum → Byte → Instr} {w : InsWord} {e : DecodeReject} :
    shapeB mk w = .error e ↔ (rwOf w ≠ 0#4 ∨ raOf w ≠ 0#4) ∧ e = .reserved := by
  simp only [shapeB, whenZero_eq_error, Bool.and_eq_false_iff, beq_eq_false_iff_ne]

theorem shapeH_eq_error {mk : Byte → Instr} {w : InsWord} {e : DecodeReject} :
    shapeH mk w = .error e ↔ (rwOf w ≠ 0#4 ∨ raOf w ≠ 0#4 ∨ rbOf w ≠ 0#4) ∧ e = .reserved := by
  simp only [shapeH, whenZero_eq_error, Bool.and_eq_false_iff, beq_eq_false_iff_ne, or_assoc]

theorem shapeM_eq_error {w : InsWord} {e : DecodeReject} :
    shapeM w = .error e ↔ (raOf w ≠ 0#4 ∨ rbOf w ≠ 0#4 ∨ (immOf w ≠ 0#8 ∧ immOf w ≠ 1#8)) ∧ e = .reserved := by
  unfold shapeM
  split
  case isTrue h0 => simp [h0, Bool.and_eq_false_iff, -Bool.and_eq_false_imp]
  case isFalse h0 =>
    split
    case isTrue h1 => simp [h1, Bool.and_eq_false_iff, -Bool.and_eq_false_imp]
    case isFalse h1 => simp [h0, h1, eq_comm]

/-- The opcodes that the map gives an instruction (30_encoding.md R75, R76). -/
def assignedCells : List Opcode :=
  [0b00000#5, 0b00001#5, 0b00011#5, 0b00100#5, 0b00110#5, 0b00111#5, 0b01000#5, 0b01001#5, 0b01011#5, 0b01100#5, 0b01110#5,
    0b01111#5, 0b10000#5, 0b10001#5, 0b10010#5, 0b11000#5, 0b11001#5, 0b11111#5]

/-- The fourteen blank cells of the map (30_encoding.md R83). -/
def blankCells : List Opcode :=
  [0b00010#5, 0b00101#5, 0b01010#5, 0b01101#5, 0b10011#5, 0b10100#5, 0b10101#5, 0b10110#5, 0b10111#5, 0b11010#5, 0b11011#5,
    0b11100#5, 0b11101#5, 0b11110#5]

theorem mem_blankCells_of_not_mem_assigned : ∀ op : Opcode, op ∉ assignedCells → op ∈ blankCells := by decide

/-- Settles O7: a cell of the map never answers illegal, and an opcode of no cell is one of the fourteen. -/
theorem illegalExactlyBlankCells : Obligations.IllegalExactlyBlankCells := by
  intro w
  unfold decode
  split
  case h_1 hop | h_2 hop | h_4 hop | h_5 hop | h_6 hop => simp [hop, shapeR_eq_error]
  case h_3 hop => simp [hop, shapeR2_eq_error]
  case h_7 hop | h_8 hop | h_10 hop | h_11 hop | h_12 hop => simp [hop, shapeI_eq_error]
  case h_9 hop => simp [hop, shapeI1_eq_error]
  case h_13 hop | h_14 hop => simp [hop, shapeB_eq_error]
  case h_15 hop => simp [hop, shapeM_eq_error]
  case h_16 hop | h_17 hop => simp [hop]
  case h_18 hop => simp [hop, shapeH_eq_error]
  case h_19 =>
    simp only [true_iff]
    exact mem_blankCells_of_not_mem_assigned _ (by simp_all [assignedCells])

/-- Settles O8: a cell of the map answers reserved for the fields of its own shape. -/
theorem reservedExactlyNonzeroFields : Obligations.ReservedExactlyNonzeroFields := by
  intro w
  unfold decode
  split
  case h_1 hop | h_2 hop | h_4 hop | h_5 hop | h_6 hop => simp [hop, shapeR_eq_error]
  case h_3 hop => simp [hop, shapeR2_eq_error]
  case h_7 hop | h_8 hop | h_10 hop | h_11 hop | h_12 hop => simp [hop, shapeI_eq_error]
  case h_9 hop => simp [hop, shapeI1_eq_error]
  case h_13 hop | h_14 hop => simp [hop, shapeB_eq_error]
  case h_15 hop => simp [hop, shapeM_eq_error]
  case h_16 hop | h_17 hop => simp [hop]
  case h_18 hop => simp [hop, shapeH_eq_error]
  case h_19 => simp_all

/-! ### The regularities of the map (section 3) -/

theorem pack_or_pack (op op' : Opcode) (rw rw' ra ra' rb rb' : RegNum) (imm imm' : Byte) :
    pack op rw ra rb imm ||| pack op' rw' ra' rb' imm' =
      pack (op ||| op') (rw ||| rw') (ra ||| ra') (rb ||| rb') (imm ||| imm') := by
  refine BitVec.eq_of_getLsbD_eq fun i _ => ?_
  simp only [BitVec.getLsbD_or, getLsbD_pack]
  split_ifs <;> rfl

theorem pack_xor_pack (op op' : Opcode) (rw rw' ra ra' rb rb' : RegNum) (imm imm' : Byte) :
    pack op rw ra rb imm ^^^ pack op' rw' ra' rb' imm' =
      pack (op ^^^ op') (rw ^^^ rw') (ra ^^^ ra') (rb ^^^ rb') (imm ^^^ imm') := by
  refine BitVec.eq_of_getLsbD_eq fun i _ => ?_
  simp only [BitVec.getLsbD_xor, getLsbD_pack]
  split_ifs <;> rfl

/-- A byte as a word stands in the imm field. -/
theorem setWidth_eq_pack (imm : Byte) : imm.setWidth 25 = pack 0#5 0#4 0#4 0#4 imm := by
  apply BitVec.eq_of_toNat_eq
  rw [toNat_pack, BitVec.toNat_setWidth_of_le (by decide)]
  simp

/-- Bit 23 of a word is bit 3 of its opcode, and the immediate goes into an imm field of 0. -/
theorem pack_or_bit23_or_imm (op : Opcode) (rw ra rb : RegNum) (imm : Byte) :
    pack op rw ra rb 0#8 ||| 0x0800000#25 ||| imm.setWidth 25 = pack (op ||| 0b01000#5) rw ra rb imm := by
  have hbit : 0x0800000#25 = pack 0b01000#5 0#4 0#4 0#4 0#8 := by decide
  rw [hbit, setWidth_eq_pack, pack_or_pack, pack_or_pack]
  simp

/-- Settles O9: the opcodes of a pair of rows 00 and 01 differ in bit 3, those of BRZ and BRO in bit 0. -/
theorem immediateFormsDifferInBit23 : Obligations.ImmediateFormsDifferInBit23 := by
  refine ⟨fun rw ra imm => ?_, fun rb dest => ?_⟩
  · simp [encode, pack_or_bit23_or_imm]
  · have hbit : 0x0100000#25 = pack 0b00001#5 0#4 0#4 0#4 0#8 := by decide
    simp only [encode]
    rw [hbit, pack_xor_pack]
    simp

/-- Settles O1: fixed words, decoded by evaluation. -/
theorem specWordsDecode : Obligations.SpecWordsDecode := by
  unfold Obligations.SpecWordsDecode
  decide

end Sys2Proof

/-! PROOF. What an instruction of each kind does (00_scope.md R11), with the value a writer writes and the condition of a
branch named; then what follows for one step: when it is refused, what it leaves unchanged, where it goes. -/

namespace Sys2Proof.Machine

/-! ### The ends of a step, in both directions -/

theorem writeBack_eq_refused_iff {rw : RegNum} {v : Byte} {s : State} {r : Refusal} :
    writeBack rw v s = .refused r ↔ s.nextPc = none ∧ r = .pcPastEnd := by
  constructor
  · intro h
    obtain ⟨hr, hn⟩ := writeBack_refused h
    exact ⟨hn, hr⟩
  · rintro ⟨hn, rfl⟩
    simp [writeBack, hn]

theorem branchTo_of_slot_ne_none {taken : Bool} {dest : Byte} {s : State} (h : s.slot ≠ .none) :
    branchTo taken dest s = .refused .branchInDelaySlot := by
  unfold branchTo
  cases hs : s.slot with
  | none => exact absurd hs h
  | fall => rfl
  | take t => rfl

theorem branchTo_eq_refused_iff {taken : Bool} {dest : Byte} {s : State} {r : Refusal} :
    branchTo taken dest s = .refused r ↔
      (s.slot ≠ .none ∧ r = .branchInDelaySlot) ∨ (s.slot = .none ∧ s.pc = 255#8 ∧ r = .pcPastEnd) := by
  constructor
  · intro h
    obtain ⟨hr, hs⟩ | ⟨hr, hs, hp⟩ := branchTo_refused h
    · exact .inl ⟨hs, hr⟩
    · exact .inr ⟨hs, hp, hr⟩
  · rintro (⟨hs, rfl⟩ | ⟨hs, hp, rfl⟩)
    · exact branchTo_of_slot_ne_none hs
    · simp [branchTo, State.seqPc, hs, hp]

/-! ### One instruction -/

/-- What an instruction writes to `x[rw]`; of no interest for an instruction that is no writer (10_state.md R24). -/
def written : Instr → State → Byte
  | .or _ ra rb, s => s.readReg ra ||| s.readReg rb
  | .and _ ra rb, s => s.readReg ra &&& s.readReg rb
  | .not _ rb, s => notResult (s.readReg rb)
  | .cmp _ ra rb, s => compareResult (s.readReg ra) (s.readReg rb)
  | .add _ ra rb, s => addResult (s.readReg ra) (s.readReg rb)
  | .sub _ ra rb, s => subResult (s.readReg ra) (s.readReg rb)
  | .ori _ ra imm, s => s.readReg ra ||| imm
  | .andi _ ra imm, s => s.readReg ra &&& imm
  | .noti _ imm, _ => notResult imm
  | .cmpi _ ra imm, s => compareResult (s.readReg ra) imm
  | .addi _ ra imm, s => addResult (s.readReg ra) imm
  | .subi _ ra imm, s => subResult (s.readReg ra) imm
  | .mflo _, s => s.lo
  | .mfhi _, s => s.hi
  | .li _ imm, _ => imm
  | _, _ => 0#8

theorem exec_eq_writeBack {i : Instr} {rw : RegNum} (h : i.kind = .writer rw) (s : State) :
    exec i s = writeBack rw (written i s) s := by
  cases i with
  | li _ imm =>
    cases h
    exact exec_li _ imm s
  | brz | bro | ld | st | halt | br => cases h
  | _ => cases h; rfl

/-- Whether the condition of a branch holds (42_branch.md R140, R141; BR is always taken, 46_pseudo.md R182). -/
def taken : Instr → State → Bool
  | .brz rb _, s => !bitZero (s.readReg rb)
  | .bro rb _, s => bitZero (s.readReg rb)
  | .br _, _ => true
  | _, _ => false

/-- BR is always taken: register 0, the source of its expansion, reads 0 (46_pseudo.md R182). -/
theorem exec_br (dest : Byte) (s : State) : exec (.br dest) s = branchTo true dest s :=
  calc exec (.br dest) s = branchTo (!bitZero 0#8) dest s := rfl
    _ = branchTo true dest s := by rw [show bitZero 0#8 = false by decide, Bool.not_false]

/-- A branch ends in `branchTo` its imm field. -/
theorem exec_eq_branchTo {i : Instr} (h : i.kind = .branch) (s : State) :
    exec i s = branchTo (taken i s) (immOf (encode i)) s := by
  cases i with
  | brz rb dest => rw [encode, immOf_pack]; rfl
  | bro rb dest => rw [encode, immOf_pack]; rfl
  | br dest =>
    rw [encode, immOf_pack]
    exact exec_br dest s
  | _ => cases h

/-- What a branch answers outside a delay slot and below address 255. -/
theorem exec_branch_of_slot_none {i : Instr} (hk : i.kind = .branch) {s : State} (hs : s.slot = .none)
    (hp : s.pc ≠ 255#8) : exec i s =
      .next ((s.setPc (s.pc + 1#8)).setSlot (if taken i s then .take (immOf (encode i)) else .fall)) := by
  rw [exec_eq_branchTo hk, branchTo_of_slot_none hs hp]

/-- Bit 0 tells an odd number from an even one (00_scope.md R8). -/
theorem bitZero_eq_decide (v : Byte) : bitZero v = decide (v.toNat % 2 = 1) := by
  rw [bitZero, BitVec.getLsbD, Nat.testBit_zero]

theorem taken_brz (rb : RegNum) (dest : Byte) (s : State) :
    taken (.brz rb dest) s = true ↔ (s.readReg rb).toNat % 2 = 0 := by
  simp [taken, bitZero_eq_decide]

theorem taken_bro (rb : RegNum) (dest : Byte) (s : State) :
    taken (.bro rb dest) s = true ↔ (s.readReg rb).toNat % 2 = 1 := by
  simp [taken, bitZero_eq_decide]

/-- Everything an instruction can do when it answers a next state, with the value written and the condition. -/
theorem exec_next_cases {i : Instr} {s t : State} (h : exec i s = .next t) :
    (∃ rw n, i.kind = .writer rw ∧ s.nextPc = some n ∧ t = ((s.writeReg rw (written i s)).setPc n).setSlot .none) ∨
    (i.kind = .branch ∧ s.slot = .none ∧ s.pc ≠ 255#8 ∧
      t = (s.setPc (s.pc + 1#8)).setSlot (if taken i s then .take (immOf (encode i)) else .fall)) ∨
    (∃ c, i = .halt c ∧ t = s.setHalted c) := by
  cases hk : i.kind with
  | writer rw =>
    rw [exec_eq_writeBack hk] at h
    obtain ⟨n, hn, ht⟩ := writeBack_next h
    exact .inl ⟨rw, n, rfl, hn, ht⟩
  | branch =>
    rw [exec_eq_branchTo hk] at h
    exact .inr (.inl ⟨rfl, branchTo_next h⟩)
  | halt =>
    obtain ⟨c, rfl, hc⟩ := exec_halt hk s
    exact .inr (.inr ⟨c, rfl, Host.Outcome.next.inj (h.symm.trans hc)⟩)
  | loadStore => cases (exec_loadStore hk s).symm.trans h

theorem exec_ne_fault (i : Instr) (s : State) (f : Fault) : exec i s ≠ .fault f := by
  cases hk : i.kind with
  | writer rw =>
    rw [exec_eq_writeBack hk]
    exact writeBack_no_fault
  | branch =>
    rw [exec_eq_branchTo hk]
    exact branchTo_no_fault
  | halt =>
    obtain ⟨c, rfl, hc⟩ := exec_halt hk s
    simp [hc]
  | loadStore => simp [exec_loadStore hk s]

/-- When an instruction is refused (60_exceptions.md R203, R205). -/
theorem exec_eq_refused_iff {i : Instr} {s : State} {r : Refusal} : exec i s = .refused r ↔
    (i.kind = .loadStore ∧ r = .loadStoreNotDescribed) ∨
    (i.kind = .branch ∧ s.slot ≠ .none ∧ r = .branchInDelaySlot) ∨
    (i.kind ≠ .loadStore ∧ i.kind ≠ .halt ∧ (i.kind = .branch → s.slot = .none) ∧ s.pc = 255#8 ∧
      (∀ d, s.slot ≠ .take d) ∧ r = .pcPastEnd) := by
  cases hk : i.kind with
  | writer rw =>
    rw [exec_eq_writeBack hk, writeBack_eq_refused_iff, nextPc_eq_none_iff]
    simp [and_assoc]
  | branch =>
    rw [exec_eq_branchTo hk, branchTo_eq_refused_iff]
    by_cases hs : s.slot = .none <;> simp [hs]
  | halt =>
    obtain ⟨c, rfl, hc⟩ := exec_halt hk s
    simp [hc]
  | loadStore => simp [exec_loadStore hk s, eq_comm]

/-- No instruction writes Lo, Hi or instruction memory (10_state.md R27, 20_memory.md R52). -/
theorem exec_frame {i : Instr} {s t : State} (h : exec i s = .next t) : t.lo = s.lo ∧ t.hi = s.hi ∧ t.imem = s.imem := by
  obtain ⟨rw, n, -, -, rfl⟩ | ⟨-, -, -, rfl⟩ | ⟨c, -, rfl⟩ := exec_next_cases h <;> simp

/-! ### One step -/

theorem step_of_halted {s : State} {c : Byte} (h : s.halted = some c) : step s = .fault (.halted c) := by
  simp [step, State.stopped, h]

theorem step_of_decode {s : State} {i : Instr} (hh : s.halted = none) (hd : decode (s.ifetch s.pc) = .ok i) :
    step s = exec i s := by
  simp [step, State.stopped, State.fetchInstr, hh, hd, Except.mapError]

theorem exec_of_step {s t : State} {i : Instr} (h : step s = .next t) (hd : decode (s.ifetch s.pc) = .ok i) :
    s.halted = none ∧ exec i s = .next t := by
  obtain ⟨hh, -⟩ := step_next h
  exact ⟨hh, (step_of_decode hh hd).symm.trans h⟩

end Sys2Proof.Machine

namespace Sys2Proof.Safety

open Sys2Proof.Machine

/-- Settles O11: of a machine that is not halted, a step is the fetch and the instruction. -/
theorem stepRunsDecodedInstr : Obligations.StepRunsDecodedInstr := fun _ _ => step_of_decode

/-- Settles O12: the refusal of a word that is no instruction is named after its class. -/
theorem stepRefusesUndecodedWord : Obligations.StepRefusesUndecodedWord := fun _ hh =>
  ⟨step_of_error hh, step_of_error hh⟩

/-- Settles O13: a halted machine faults at once, and a run stops at its first fault. -/
theorem haltedMachineHasNoStep : Obligations.HaltedMachineHasNoStep := fun _ _ h =>
  ⟨step_of_halted h, runSteps_of_fault (step_of_halted h)⟩

/-- Settles O18: `writeBack` needs the next address, and a branch outside a delay slot the next in sequence. -/
theorem sequencePastEndRefused : Obligations.SequencePastEndRefused := by
  intro i s
  refine ⟨fun ⟨rw, hk⟩ => ?writer, fun hk hs => ?branch⟩
  case writer =>
    rw [exec_eq_writeBack hk, writeBack_eq_refused_iff, nextPc_eq_none_iff]
    simp
  case branch =>
    rw [exec_eq_branchTo hk, branchTo_eq_refused_iff]
    simp [hs]

/-- Settles O38: a branch looks at the slot before anything else. -/
theorem branchInDelaySlotRefused : Obligations.BranchInDelaySlotRefused := by
  intro i s hk hs
  rw [exec_eq_branchTo hk]
  exact branchTo_of_slot_ne_none hs

/-- Settles O49: no end of an instruction is a fault, so a step faults only before it fetches. -/
theorem noInstructionFaults : Obligations.NoInstructionFaults := by
  refine ⟨exec_ne_fault, fun s f => ⟨fun h => ?_, ?_⟩⟩
  · cases hh : s.halted with
    | some c =>
      rw [step_of_halted hh] at h
      exact ⟨c, rfl, (Host.Outcome.fault.inj h).symm⟩
    | none =>
      cases hd : decode (s.ifetch s.pc) with
      | error e => cases (step_of_error hh hd).symm.trans h
      | ok i => exact absurd ((step_of_decode hh hd).symm.trans h) (exec_ne_fault i s f)
  · rintro ⟨c, hc, rfl⟩
    exact step_of_halted hc

/-- Settles O50: the fetch refuses a word that is no instruction, and an instruction refuses as its kind does. -/
theorem refusalsAreTheClosedList : Obligations.RefusalsAreTheClosedList := by
  intro s r hh
  cases hd : decode (s.ifetch s.pc) with
  | error e =>
    rw [step_of_error hh hd]
    cases e <;> simp [rejectRefusal, eq_comm]
  | ok i =>
    rw [step_of_decode hh hd, exec_eq_refused_iff]
    simp

/-- Settles O16: `x[0]` has no storage, and a write to it is no write. -/
theorem zeroRegisterHardwired : Obligations.ZeroRegisterHardwired := by
  refine ⟨readReg_zero, fun i s hk hadv => ?_⟩
  obtain ⟨n, hn⟩ := exists_nextPc hadv
  refine ⟨(s.setPc n).setSlot .none, ?_, ⟨by simp, by simp, by simp, by simp⟩, by simp, ?_⟩
  · rw [exec_eq_writeBack hk, writeBack_of_nextPc hn, writeReg_zero]
  · exact nextPc_of_canAdvance hadv hn rfl rfl

/-- Settles O17: every writer ends in `writeBack`, which goes to the next address and clears the slot. -/
theorem writersAdvance : Obligations.WritersAdvance := by
  intro i rw s hk hadv
  obtain ⟨n, hn⟩ := exists_nextPc hadv
  refine ⟨_, (exec_eq_writeBack hk s).trans (writeBack_of_nextPc hn), nextPc_of_canAdvance hadv hn rfl rfl, by simp⟩

/-- Settles O34: NOP is a writer of register 0 and the word 0. -/
theorem nopOnlyAdvances : Obligations.NopOnlyAdvances := by
  intro s
  obtain ⟨-, hzero⟩ := zeroRegisterHardwired
  exact ⟨rfl, (exec_expand .nop s).symm, hzero .nop s rfl⟩

/-! ### Where a step goes, and what it changes -/

/-- Settles O42: only a branch leaves another slot than `none`, and no branch executes in a delay slot. -/
theorem delaySlotLastsOneStep : Obligations.DelaySlotLastsOneStep := by
  intro s t i h hrun hd
  obtain ⟨-, hexec⟩ := exec_of_step h hd
  obtain ⟨rw, n, hk, -, rfl⟩ | ⟨hk, hs, -, rfl⟩ | ⟨c, -, rfl⟩ := exec_next_cases hexec
  · simp [hk]
  · simp only [hk, setSlot_slot, iff_true]
    exact ⟨by split <;> simp, fun _ => hs⟩
  · cases hrun

/-- Settles O43, by induction on the number of steps. -/
theorem loHiAndInstructionMemoryFixed : Obligations.LoHiAndInstructionMemoryFixed := by
  intro n
  induction n with
  | zero =>
    rintro s t h
    obtain rfl := Host.Outcome.next.inj h
    exact ⟨rfl, rfl, rfl⟩
  | succ n ih =>
    intro s t h
    cases hstep : step s with
    | fault f => cases (runSteps_of_fault hstep n).symm.trans h
    | refused r => cases (runSteps_of_refused hstep n).symm.trans h
    | next u =>
      obtain ⟨-, i, -, hexec⟩ := step_next hstep
      obtain ⟨hlo, hhi, himem⟩ := exec_frame hexec
      obtain ⟨hlo', hhi', himem'⟩ := ih u t ((runSteps_of_next hstep n).symm.trans h)
      exact ⟨hlo'.trans hlo, hhi'.trans hhi, himem'.trans himem⟩

/-- Settles O44: a writer changes its destination alone, and a branch or HALT no register. -/
theorem onlyDestinationRegisterChanges : Obligations.OnlyDestinationRegisterChanges := by
  intro s t r h hne
  refine ⟨fun hr => hne (by rw [hr, readReg_zero, readReg_zero]), ?_⟩
  obtain ⟨-, i, hd, hexec⟩ := step_next h
  refine ⟨i, hd, ?_⟩
  obtain ⟨rw, n, hk, -, rfl⟩ | ⟨-, -, -, rfl⟩ | ⟨c, -, rfl⟩ := exec_next_cases hexec
  · have hrw : r = rw := by
      by_contra hrw
      exact hne (by simpa using readReg_writeReg_ne s r rw _ hrw)
    rw [hk, hrw]
  · exact absurd rfl hne
  · exact absurd rfl hne

/-- Settles O47: HALT alone writes `halted`, which is `none` before every step. -/
theorem onlyHaltHalts : Obligations.OnlyHaltHalts := by
  intro s t c h
  obtain ⟨hh, i, hd, hexec⟩ := step_next h
  rw [hd]
  obtain ⟨rw, n, hk, -, rfl⟩ | ⟨hk, -, -, rfl⟩ | ⟨c', rfl, rfl⟩ := exec_next_cases hexec
  · have hne : i ≠ .halt c := by rintro rfl; cases hk
    simp [hh, hne]
  · have hne : i ≠ .halt c := by rintro rfl; cases hk
    simp [hh, hne]
  · simp

/-- Settles O48: a writer goes to the next address, and a branch to the next in sequence. -/
theorem pcMovesOnlyAsTheTableSays : Obligations.PcMovesOnlyAsTheTableSays := by
  intro s t h hrun
  obtain ⟨-, i, -, hexec⟩ := step_next h
  obtain ⟨rw, n, -, hn, rfl⟩ | ⟨-, hs, hp, rfl⟩ | ⟨c, -, rfl⟩ := exec_next_cases hexec
  · by_cases hslot : ∃ d, s.slot = .take d
    · obtain ⟨d, hd⟩ := hslot
      rw [nextPc_take hd] at hn
      exact .inl ⟨d, hd, (Option.some.inj hn).symm⟩
    · have hslot : ∀ d, s.slot ≠ .take d := not_exists.mp hslot
      rw [nextPc_seq hslot, seqPc_eq_some_iff] at hn
      exact .inr ⟨hslot, hn⟩
  · exact .inr ⟨by simp [hs], hp, rfl⟩
  · cases hrun

/-- After a branch comes its delay slot, then the target or the address after the delay slot, whatever the slot's
instruction wrote (42_branch.md R142). -/
theorem target_of_branch {s t u : State} {i : Instr} (hk : i.kind = .branch) (hd : decode (s.ifetch s.pc) = .ok i)
    (hst : step s = .next t) (htu : step t = .next u) (hrun : u.halted = none) :
    t.pc = s.pc + 1#8 ∧ u.slot = .none ∧ u.pc = if taken i s then immOf (encode i) else s.pc + 2#8 := by
  obtain ⟨-, hexec⟩ := exec_of_step hst hd
  rw [exec_eq_branchTo hk] at hexec
  obtain ⟨-, -, rfl⟩ := branchTo_next hexec
  obtain ⟨-, j, -, hslot⟩ := step_next htu
  obtain ⟨rw, n, -, hn, rfl⟩ | ⟨-, hnone, -, -⟩ | ⟨c, -, rfl⟩ := exec_next_cases hslot
  · refine ⟨rfl, rfl, ?_⟩
    cases hc : taken i s with
    | true => simpa [State.nextPc, hc, eq_comm] using hn
    | false =>
      simp only [State.nextPc, hc, setSlot_slot, Bool.false_eq_true, if_false, seqPc_eq_some_iff] at hn
      simpa [BitVec.add_assoc] using hn.2
  · cases hc : taken i s <;> simp [hc] at hnone
  · cases hrun

/-- Settles O41: BRZ and BRO with their conditions on bit 0. -/
theorem delaySlotThenTarget : Obligations.DelaySlotThenTarget := by
  intro s t u rb dest hst htu hrun
  refine ⟨fun hd => ?_, fun hd => ?_⟩
  · have h := target_of_branch rfl hd hst htu hrun
    simpa only [taken_brz, encode, immOf_pack] using h
  · have h := target_of_branch rfl hd hst htu hrun
    simpa only [taken_bro, encode, immOf_pack] using h

end Sys2Proof.Safety

/-! PROOF. The machine invariant (10_state.md section 5): it holds at reset, every step keeps it, and over instruction memory
that passes the check of 70_reset_and_hazards.md R233 it leaves no refusal. -/

namespace Sys2Proof.Safety

open Sys2Proof.Machine

theorem branchAt_eq_true_iff {m : Memory} {a : Byte} :
    branchAt m a = true ↔ ∃ i, decode (memRead m a.toNat) = .ok i ∧ i.kind = .branch := by
  unfold branchAt
  split <;> simp [*]

/-- A branch stands at its address with its own target, since its word is the word of it. -/
theorem branchToAt_of_decode {m : Memory} {a : Byte} {i : Instr} (hd : decode (memRead m a.toNat) = .ok i)
    (hk : i.kind = .branch) : branchToAt m a (immOf (encode i)) = true := by
  simp [branchToAt, branchAt_eq_true_iff.mpr ⟨i, hd, hk⟩, encode_of_decode hd]

theorem haltIn_of_decode {m : Memory} {a c : Byte} (hd : decode (memRead m a.toNat) = .ok (.halt c)) :
    haltIn m c = true :=
  List.any_eq_true.mpr ⟨a.toNat, List.mem_range.mpr a.isLt, by rw [hd, beq_self_eq_true]⟩

theorem machineInv_running {s : State} (h : s.halted = none) :
    machineInv s = true ↔ Memory.wf s.imem = true ∧ slotInv s = true := by
  simp [machineInv, h]

theorem machineInv_halted {s : State} {c : Byte} (h : s.halted = some c) :
    machineInv s = true ↔ Memory.wf s.imem = true ∧ haltIn s.imem c = true := by
  simp [machineInv, h]

theorem slotInv_of_slot_none {s : State} (h : s.slot = .none) : slotInv s = true := by
  simp [slotInv, h]

/-- In a delay slot of a running machine the word before `pc` is a branch. -/
theorem branchAt_of_slotInv {s : State} (h : slotInv s = true) (hs : s.slot ≠ .none) :
    branchAt s.imem (s.pc - 1#8) = true := by
  unfold slotInv at h
  cases hslot : s.slot with
  | none => exact absurd hslot hs
  | fall => simp_all
  | take t => simp_all [branchToAt]

/-- A branch below address 255 leaves a slot whose branch is the word before the new `pc`. -/
theorem slotInv_after_branch {s : State} {i : Instr} (hd : decode (s.ifetch s.pc) = .ok i) (hk : i.kind = .branch)
    (hp : s.pc ≠ 255#8) (b : Bool) :
    slotInv ((s.setPc (s.pc + 1#8)).setSlot (if b then .take (immOf (encode i)) else .fall)) = true := by
  have hpc : s.pc + 1#8 ≠ 0#8 := fun h => hp (by bv_omega)
  have hprev : s.pc + 1#8 - 1#8 = s.pc := BitVec.add_sub_cancel ..
  cases b with
  | false => simpa [slotInv, hpc, hprev] using branchAt_eq_true_iff.mpr ⟨i, hd, hk⟩
  | true => simpa [slotInv, hpc, hprev] using branchToAt_of_decode hd hk

/-- Settles O52: no step writes instruction memory; a writer leaves the delay slot, a branch enters it from its own address,
and HALT stands at the `pc` of the step. -/
theorem invariantKeptByEveryStep : Obligations.InvariantKeptByEveryStep := by
  intro s t hinv hstep
  obtain ⟨hrun, i, hd, hexec⟩ := step_next hstep
  obtain ⟨hwf, -⟩ := (machineInv_running hrun).mp hinv
  obtain ⟨rw, n, -, -, rfl⟩ | ⟨hk, -, hp, rfl⟩ | ⟨c, rfl, rfl⟩ := exec_next_cases hexec
  · exact (machineInv_running (by simpa using hrun)).mpr ⟨by simpa using hwf, slotInv_of_slot_none rfl⟩
  · exact (machineInv_running (by simpa using hrun)).mpr ⟨hwf, slotInv_after_branch hd hk hp _⟩
  · exact (machineInv_halted rfl).mpr ⟨hwf, haltIn_of_decode hd⟩

/-- Settles O51: reset leaves no delay slot pending, and nothing halted. -/
theorem invariantAtReset : Obligations.InvariantAtReset := by
  have hreset : ∀ p : Params, Memory.wf p.imem = true → machineInv (State.ofParams p) = true := fun _ hwf =>
    (machineInv_running rfl).mpr ⟨hwf, slotInv_of_slot_none rfl⟩
  exact ⟨hreset, hreset Config.params reset_imem_wf⟩

/-! ### Checked instruction memory -/

/-- What a word that passes the check is: HALT, or a writer or a branch below address 255 (70_reset_and_hazards.md R233). -/
theorem textOkAt_cases {m : Memory} {a : Byte} (h : textOkAt m a = true) : ∃ i, decode (memRead m a.toNat) = .ok i ∧
    (i.kind = .halt ∨ ((∃ rw, i.kind = .writer rw) ∨ i.kind = .branch) ∧ a ≠ 255#8) := by
  unfold textOkAt at h
  split at h
  case h_1 => cases h
  case h_2 i hd =>
    refine ⟨i, hd, ?_⟩
    cases hk : i.kind <;> simp_all

/-- The check bars a branch in the delay slot of another (R233 item 2). -/
theorem branchAt_succ_of_textOkAt {m : Memory} {a : Byte} (h : textOkAt m a = true) (hb : branchAt m a = true) :
    branchAt m (a + 1#8) = false := by
  obtain ⟨i, hd, hk⟩ := branchAt_eq_true_iff.mp hb
  simp only [textOkAt, hd, hk, Bool.and_eq_true, Bool.not_eq_true'] at h
  obtain ⟨-, hfree⟩ := h
  exact hfree

/-- Settles O53: below address 255 the next address exists, and a branch in a delay slot would follow a branch. -/
theorem checkedMemoryAlwaysSteps : Obligations.CheckedMemoryAlwaysSteps := by
  intro s htext hinv hrun
  obtain ⟨-, hslot⟩ := (machineInv_running hrun).mp hinv
  obtain ⟨i, hd, hcases⟩ := textOkAt_cases (htext s.pc)
  rw [step_of_decode hrun hd]
  rcases hcases with hk | ⟨⟨rw, hk⟩ | hk, hp⟩
  · obtain ⟨c, -, hc⟩ := exec_halt hk s
    exact ⟨_, hc⟩
  · have hadv : canAdvance s = true := by
      unfold canAdvance
      cases s.slot <;> simp [hp]
    obtain ⟨t, ht, -⟩ := writersAdvance i rw s hk hadv
    exact ⟨t, ht⟩
  · have hnone : s.slot = .none := by
      by_contra hs
      have hfree := branchAt_succ_of_textOkAt (htext (s.pc - 1#8)) (branchAt_of_slotInv hslot hs)
      rw [BitVec.sub_add_cancel, Bool.eq_false_iff] at hfree
      exact hfree (branchAt_eq_true_iff.mpr ⟨i, hd, hk⟩)
    exact ⟨_, exec_branch_of_slot_none hk hnone hp⟩

/-- Over checked memory a run goes on, or has halted, from every state of the invariant: by induction on the steps. -/
theorem run_of_checked_memory (n : Nat) {s : State} (htext : TextOk s.imem) (hinv : machineInv s = true) :
    (∃ t, runSteps n s = .next t) ∨
    ∃ k t c, k < n ∧ runSteps k s = .next t ∧ t.halted = some c ∧ runSteps n s = .fault (.halted c) := by
  induction n generalizing s with
  | zero => exact .inl ⟨s, rfl⟩
  | succ n ih =>
    cases hh : s.halted with
    | some c => exact .inr ⟨0, s, c, n.succ_pos, rfl, hh, runSteps_of_fault (step_of_halted hh) n⟩
    | none =>
      obtain ⟨t, hstep⟩ := checkedMemoryAlwaysSteps s htext hinv hh
      obtain ⟨-, i, -, hexec⟩ := step_next hstep
      obtain ⟨-, -, himem⟩ := exec_frame hexec
      rw [runSteps_of_next hstep]
      rcases ih (himem ▸ htext) (invariantKeptByEveryStep s t hinv hstep) with hnext | ⟨k, u, c, hk, hu, hc, hfault⟩
      · exact .inl hnext
      · exact .inr ⟨k + 1, u, c, Nat.succ_lt_succ hk, (runSteps_of_next hstep k).trans hu, hc, hfault⟩

/-- Settles O54: the invariant holds at reset. -/
theorem checkedMemoryRunsAreNeverRefused : Obligations.CheckedMemoryRunsAreNeverRefused := by
  intro p n htext hwf
  obtain ⟨hreset, -⟩ := invariantAtReset
  exact run_of_checked_memory n htext (hreset p hwf)

end Sys2Proof.Safety

/-! PROOF. Instruction memory as data (20_memory.md section 1) and the state after reset (10_state.md section 7): a read after
a load, the word that runs next, and canonical memories told apart by what they read. -/

namespace Sys2Proof.Machine

/-- A read after a write, in canonical memory. -/
theorem memRead_memWrite {m : Memory} (h : Memory.wf m = true) (a b : Nat) (v : InsWord) :
    memRead (memWrite m a v) b = if b = a then v else memRead m b := by
  unfold memWrite
  split
  case isTrue hv => rw [hv, memRead_memErase h]
  case isFalse => rw [memRead_memInsert]

theorem ifetch_loadWord {s : State} (h : Memory.wf s.imem = true) (a b : Byte) (v : InsWord) :
    (s.loadWord a v).ifetch b = if b = a then v else s.ifetch b := by
  simp only [State.ifetch, loadWord_imem, memRead_memWrite h, BitVec.toNat_inj]

/-- The number of a word stands for that word. -/
theorem withFetchWord_toNat (s : State) (w : InsWord) :
    s.withFetchWord 25 w.toNat = { s.loadWord s.pc w with halted := none } := by
  rw [State.withFetchWord, Nat.mod_eq_of_lt w.isLt, BitVec.ofNat_toNat, BitVec.setWidth_eq]

/-- Canonical memories that read the same at all 256 addresses are the same list: the first entry that differs, in address or
in word, would be read at the lower of the two addresses. -/
theorem eq_of_memRead_eq {lo : Nat} {m n : Memory} (hm : memWfFrom lo m = true) (hn : memWfFrom lo n = true)
    (h : ∀ a < 256, memRead m a = memRead n a) : m = n := by
  induction m generalizing lo n with
  | nil =>
    cases n with
    | nil => rfl
    | cons e n =>
      obtain ⟨b, w⟩ := e
      obtain ⟨-, hb, hw, -⟩ := memWfFrom_cons.mp hn
      exact absurd (h b hb).symm (by simpa [memRead] using hw)
  | cons e m ih =>
    obtain ⟨a, v⟩ := e
    obtain ⟨hla, ha, hv, hm'⟩ := memWfFrom_cons.mp hm
    have hread : memRead n a = v := by rw [← h a ha, memRead, if_pos rfl]
    cases n with
    | nil => exact absurd hread.symm hv
    | cons e n =>
      obtain ⟨b, w⟩ := e
      obtain ⟨hlb, hb, hw, hn'⟩ := memWfFrom_cons.mp hn
      rcases Nat.lt_trichotomy a b with hab | rfl | hba
      · have hfree : memRead ((b, w) :: n) a = Config.unlistedWord :=
          memRead_of_lt (memWfFrom_cons.mpr ⟨Nat.le_refl b, hb, hw, hn'⟩) hab
        exact absurd (hread.symm.trans hfree) hv
      · obtain rfl : w = v := by simpa [memRead] using hread
        congr 1
        refine ih hm' hn' fun c hc => ?_
        by_cases hca : c = a
        · rw [hca, memRead_of_lt hm' a.lt_succ_self, memRead_of_lt hn' a.lt_succ_self]
        · simpa [memRead, hca] using h c hc
      · have hfree : memRead ((a, v) :: m) b = Config.unlistedWord :=
          memRead_of_lt (memWfFrom_cons.mpr ⟨Nat.le_refl a, ha, hv, hm'⟩) hba
        have hread' : memRead ((b, w) :: n) b = w := by rw [memRead, if_pos rfl]
        exact absurd (hread'.symm.trans ((h b hb).symm.trans hfree)) hw

/-- Register `k + 1` stands at place `k`. -/
theorem readReg_ofNat_succ (s : State) (k : Fin 15) : s.readReg (BitVec.ofNat 4 (k.val + 1)) = s.x[k.val] := by
  have hk : (BitVec.ofNat 4 (k.val + 1)).toNat = k.val + 1 := by
    rw [BitVec.toNat_ofNat]
    omega
  have hne : BitVec.ofNat 4 (k.val + 1) ≠ 0#4 := fun h => by simp [h] at hk
  rw [State.readReg, dif_neg hne]
  simp only [hk, Nat.add_sub_cancel]

end Sys2Proof.Machine

namespace Sys2Proof.Safety

open Sys2Proof.Machine

/-- Settles O56: the write of the loader is read back, and keeps the canonical form. -/
theorem loadThenFetch : Obligations.LoadThenFetch := fun _ a b v hwf =>
  ⟨ifetch_loadWord hwf a b v, loadWord_wf hwf a v⟩

/-- Settles O57: canonical memories are told apart by some address. -/
theorem equalFetchesEqualMemory : Obligations.EqualFetchesEqualMemory := by
  intro m n hm hn h
  refine eq_of_memRead_eq hm hn fun a ha => ?_
  simpa [Nat.mod_eq_of_lt ha] using h (BitVec.ofNat 8 a)

/-- Settles O14: the loaded word is fetched and decodes to its instruction, and every other word reads as before. -/
theorem loadedWordRunsNext : Obligations.LoadedWordRunsNext := by
  intro s i hwf hi
  rw [withFetchWord_toNat]
  have hfetch : (s.loadWord s.pc (encode i)).ifetch s.pc = encode i := by rw [ifetch_loadWord hwf, if_pos rfl]
  refine ⟨step_of_decode rfl ?_, rfl, rfl, fun _ => rfl, rfl, rfl, fun a ha => ?_⟩
  · exact (congrArg decode hfetch).trans (decode_encode hi)
  · exact (ifetch_loadWord hwf s.pc a (encode i)).trans (if_neg ha)

/-- Settles O15: reset keeps the parameters, and register `k` is the one at place `k - 1`. -/
theorem resetStateAsTheSpecSays : Obligations.ResetStateAsTheSpecSays :=
  ⟨fun p => ⟨rfl, rfl, rfl, rfl, readReg_ofNat_succ (State.ofParams p), rfl, rfl, rfl⟩, Config.params, rfl⟩

end Sys2Proof.Safety

/-! PROOF. The claims of single instructions that are left: the arithmetic and inverting forms (40_alu_register.md,
41_alu_immediate.md), the moves (43_move_from.md), the branches (42_branch.md, 46_pseudo.md) and HALT (45_halt.md). -/

namespace Sys2Proof.Machine

/-- The sum of two bytes, the carry lost (40_alu_register.md R105). -/
theorem addResult_eq_ofNat (a b : Byte) : addResult a b = BitVec.ofNat 8 ((a.toNat + b.toNat) % 256) := by
  apply BitVec.eq_of_toNat_eq
  rw [addResult, BitVec.toNat_add, BitVec.toNat_ofNat]
  omega

/-- Adding the inverse and 1 is subtracting, the borrow lost (R106). -/
theorem subResult_eq_ofNat (a b : Byte) : subResult a b = BitVec.ofNat 8 ((a.toNat + 256 - b.toNat) % 256) := by
  apply BitVec.eq_of_toNat_eq
  rw [subResult, BitVec.toNat_add, BitVec.toNat_add, BitVec.toNat_not, BitVec.toNat_ofNat, BitVec.toNat_ofNat]
  omega

end Sys2Proof.Machine

namespace Sys2Proof.Safety

open Sys2Proof.Machine

/-- A writer completes where the next address exists, and writes its value to its destination and nothing else. -/
theorem exec_writesOnly {i : Instr} {rw : RegNum} (hk : i.kind = .writer rw) (s : State) (h : canAdvance s = true) :
    ∃ t, exec i s = .next t ∧ WritesOnly rw (written i s) s t :=
  writesOnly_of_exec_eq_writeBack (exec_eq_writeBack hk s) h

/-- Settles O21: NOT writes the inverse of its source, which is 255 less the source. -/
theorem notWritesInverse : Obligations.NotWritesInverse := by
  intro rw rb s
  refine ⟨decode_encode_not rw rb, ?_⟩
  rw [← notResult_eq_ofNat_sub]
  exact exec_writesOnly (i := .not rw rb) rfl s

/-- Settles O23: ADD writes the sum of its two sources. -/
theorem addWritesSumModulo256 : Obligations.AddWritesSumModulo256 := by
  intro rw ra rb s
  refine ⟨decode_encode_add rw ra rb, ?_⟩
  rw [← addResult_eq_ofNat]
  exact exec_writesOnly (i := .add rw ra rb) rfl s

/-- Settles O24: SUB writes its first source less its second. -/
theorem subWritesDifferenceModulo256 : Obligations.SubWritesDifferenceModulo256 := by
  intro rw ra rb s
  refine ⟨decode_encode_sub rw ra rb, ?_⟩
  rw [← subResult_eq_ofNat]
  exact exec_writesOnly (i := .sub rw ra rb) rfl s

/-- Settles O29: ADDI writes the sum of its source and the immediate. -/
theorem addiWritesSumModulo256 : Obligations.AddiWritesSumModulo256 := by
  intro rw ra imm s
  refine ⟨decode_encode_addi rw ra imm, ?_⟩
  rw [← addResult_eq_ofNat]
  exact exec_writesOnly (i := .addi rw ra imm) rfl s

/-- Settles O30: SUBI writes its source less the immediate. -/
theorem subiWritesDifferenceModulo256 : Obligations.SubiWritesDifferenceModulo256 := by
  intro rw ra imm s
  refine ⟨decode_encode_subi rw ra imm, ?_⟩
  rw [← subResult_eq_ofNat]
  exact exec_writesOnly (i := .subi rw ra imm) rfl s

/-- Settles O31: the value MFLO writes is Lo. -/
theorem mfloCopiesLo : Obligations.MfloCopiesLo := fun rw s =>
  ⟨decode_encode_mflo rw, exec_writesOnly (i := .mflo rw) rfl s⟩

/-- Settles O32: the value MFHI writes is Hi. -/
theorem mfhiCopiesHi : Obligations.MfhiCopiesHi := fun rw s =>
  ⟨decode_encode_mfhi rw, exec_writesOnly (i := .mfhi rw) rfl s⟩

/-- A branch outside a delay slot and below address 255 completes, and changes `pc` and `slot` only. -/
theorem branch_completes {i : Instr} (hk : i.kind = .branch) {s : State} (hs : s.slot = .none) (hp : s.pc ≠ 255#8) :
    ∃ t, exec i s = .next t ∧ SameData s t ∧ t.halted = s.halted ∧ t.pc = s.pc + 1#8 ∧
      t.slot = if taken i s then .take (immOf (encode i)) else .fall :=
  ⟨_, exec_branch_of_slot_none hk hs hp, ⟨fun _ => rfl, rfl, rfl, fun _ => rfl⟩, rfl, rfl, rfl⟩

/-- Settles O35: the condition of BRZ is that its source is even. -/
theorem brzTakesOnBitZeroClear : Obligations.BrzTakesOnBitZeroClear := by
  intro rb dest s
  refine ⟨decode_encode_brz rb dest, fun hs hp => ?_⟩
  simpa only [taken_brz, encode, immOf_pack] using branch_completes (i := .brz rb dest) rfl hs hp

/-- Settles O36: the condition of BRO is that its source is odd. -/
theorem broTakesOnBitZeroSet : Obligations.BroTakesOnBitZeroSet := by
  intro rb dest s
  refine ⟨decode_encode_bro rb dest, fun hs hp => ?_⟩
  simpa only [taken_bro, encode, immOf_pack] using branch_completes (i := .bro rb dest) rfl hs hp

/-- The word of BR as a number (46_pseudo.md R182): that of its fields, of which rw, ra and rb are 0. -/
theorem toNat_encode_br (dest : Byte) : (encode (.br dest)).toNat = 0x1000000 + dest.toNat := by
  rw [encode, toNat_pack]
  simp

/-- Settles O37: BR shares word and meaning with its expansion, and its condition always holds. -/
theorem brAlwaysTaken : Obligations.BrAlwaysTaken := by
  intro dest s
  refine ⟨toNat_encode_br dest, (encode_expand (.br dest)).symm, (exec_expand (.br dest) s).symm, fun hs hp => ?_⟩
  simpa only [taken, if_true, encode, immOf_pack] using branch_completes (i := .br dest) rfl hs hp

/-- Settles O40: HALT asks nothing of the state, writes `halted` alone, and a halted machine has no step. -/
theorem haltStopsWithExitCode : Obligations.HaltStopsWithExitCode := by
  intro code s
  refine ⟨decode_encode_halt code, s.setHalted code, rfl, rfl, ⟨fun _ => rfl, rfl, rfl, fun _ => rfl⟩, rfl,
    step_of_halted rfl, ?_, ?_⟩
  · simp [succeeded]
  · simp [failed]

end Sys2Proof.Safety

/-! PROOF. What an instruction does not depend on (10_state.md sections 2 and 3), and the data path of the control signals
(10_state.md section 9). -/

namespace Sys2Proof.Safety

open Sys2Proof.Machine

/-! ### Registers that are not read -/

/-- `u` is `s` but for the value of register `r`. -/
structure AgreeOff (r : RegNum) (s u : State) : Prop where
  pc : u.pc = s.pc
  slot : u.slot = s.slot
  halted : u.halted = s.halted
  lo : u.lo = s.lo
  hi : u.hi = s.hi
  imem : u.imem = s.imem
  reg : ∀ q, q ≠ r → u.readReg q = s.readReg q

theorem agreeOff_writeReg (s : State) (r : RegNum) (v : Byte) : AgreeOff r s (s.writeReg r v) :=
  ⟨by simp, by simp, by simp, by simp, by simp, by simp, fun q h => readReg_writeReg_ne s q r v h⟩

theorem AgreeOff.nextPc {r : RegNum} {s u : State} (h : AgreeOff r s u) : u.nextPc = s.nextPc := by
  simp only [State.nextPc, State.seqPc, h.pc, h.slot]

theorem AgreeOff.setPc_setSlot {r : RegNum} {s u : State} (h : AgreeOff r s u) (n : Byte) (v : Slot) :
    AgreeOff r ((s.setPc n).setSlot v) ((u.setPc n).setSlot v) :=
  ⟨rfl, rfl, h.halted, h.lo, h.hi, h.imem, h.reg⟩

theorem AgreeOff.setHalted {r : RegNum} {s u : State} (h : AgreeOff r s u) (c : Byte) :
    AgreeOff r (s.setHalted c) (u.setHalted c) :=
  ⟨h.pc, h.slot, rfl, h.lo, h.hi, h.imem, h.reg⟩

theorem AgreeOff.writeReg {r : RegNum} {s u : State} (h : AgreeOff r s u) (d : RegNum) (v : Byte) :
    AgreeOff r (s.writeReg d v) (u.writeReg d v) := by
  refine ⟨by simpa using h.pc, by simpa using h.slot, by simpa using h.halted, by simpa using h.lo, by simpa using h.hi,
    by simpa using h.imem, fun q hq => ?_⟩
  by_cases hd : d = 0#4
  · subst hd
    exact h.reg q hq
  by_cases hqd : q = d
  · subst hqd
    rw [readReg_writeReg_same _ _ _ hd, readReg_writeReg_same _ _ _ hd]
  · rw [readReg_writeReg_ne _ _ _ _ hqd, readReg_writeReg_ne _ _ _ _ hqd]
    exact h.reg q hq

/-- What an instruction writes depends on the registers it reads, and on Lo and Hi (10_state.md R24, R26). -/
theorem written_congr {i : Instr} {s u : State} (hreg : ∀ q ∈ reads i, u.readReg q = s.readReg q) (hlo : u.lo = s.lo)
    (hhi : u.hi = s.hi) : written i u = written i s := by
  cases i <;> simp_all [written, reads]

/-- The condition of a branch depends on the register it reads. -/
theorem taken_congr {i : Instr} {s u : State} (hreg : ∀ q ∈ reads i, u.readReg q = s.readReg q) :
    taken i u = taken i s := by
  cases i <;> simp_all [taken, reads]

/-- Settles O45: the value written, the condition and the next address are the same, and each update keeps the agreement. -/
theorem unreadRegisterIsIrrelevant : Obligations.UnreadRegisterIsIrrelevant := by
  intro i s t r v hr h
  have hag := agreeOff_writeReg s r v
  have hreg : ∀ q ∈ reads i, (s.writeReg r v).readReg q = s.readReg q := fun q hq =>
    hag.reg q fun hqr => hr (hqr ▸ hq)
  obtain ⟨u, hu, hut⟩ : ∃ u, exec i (s.writeReg r v) = .next u ∧ AgreeOff r t u := by
    obtain ⟨rw, n, hk, hn, rfl⟩ | ⟨hk, hs, hp, rfl⟩ | ⟨c, rfl, rfl⟩ := exec_next_cases h
    · refine ⟨_, (exec_eq_writeBack hk _).trans (writeBack_of_nextPc (hag.nextPc.trans hn)), ?_⟩
      rw [written_congr hreg hag.lo hag.hi]
      exact (hag.writeReg _ _).setPc_setSlot _ _
    · refine ⟨_, exec_branch_of_slot_none hk (hag.slot.trans hs) (hag.pc ▸ hp), ?_⟩
      rw [taken_congr hreg, hag.pc]
      exact hag.setPc_setSlot _ _
    · exact ⟨_, rfl, hag.setHalted c⟩
  exact ⟨u, hu, hut.pc, hut.slot, hut.halted, hut.lo, hut.hi, hut.imem, hut.reg⟩

/-! ### Lo and Hi -/

/-- `s` with other values in Lo and Hi. -/
def withLoHi (s : State) (l h : Byte) : State := { s with lo := l, hi := h }

theorem writeReg_withLoHi (s : State) (l h : Byte) (r : RegNum) (v : Byte) :
    (withLoHi s l h).writeReg r v = withLoHi (s.writeReg r v) l h := by
  unfold State.writeReg
  split <;> rfl

/-- MFLO and MFHI alone write what they read from Lo or Hi. -/
theorem written_withLoHi {i : Instr} (hlo : ∀ q, i ≠ .mflo q) (hhi : ∀ q, i ≠ .mfhi q) (s : State) (l h : Byte) :
    written i (withLoHi s l h) = written i s := by
  cases i with
  | mflo q => exact absurd rfl (hlo q)
  | mfhi q => exact absurd rfl (hhi q)
  | _ => rfl

theorem taken_withLoHi (i : Instr) (s : State) (l h : Byte) : taken i (withLoHi s l h) = taken i s := by
  cases i <;> rfl

/-- An instruction other than MFLO and MFHI neither looks at Lo and Hi nor changes them. -/
theorem exec_withLoHi {i : Instr} {s t : State} (hlo : ∀ q, i ≠ .mflo q) (hhi : ∀ q, i ≠ .mfhi q)
    (hexec : exec i s = .next t) (l h : Byte) : exec i (withLoHi s l h) = .next (withLoHi t l h) := by
  obtain ⟨rw, n, hk, hn, rfl⟩ | ⟨hk, hs, hp, rfl⟩ | ⟨c, rfl, rfl⟩ := exec_next_cases hexec
  · rw [exec_eq_writeBack hk, writeBack_of_nextPc (s := withLoHi s l h) hn, written_withLoHi hlo hhi,
      writeReg_withLoHi]
    rfl
  · rw [exec_branch_of_slot_none (s := withLoHi s l h) hk hs hp, taken_withLoHi]
    rfl
  · rfl

/-- Settles O46: the same word is fetched, and its instruction is neither MFLO nor MFHI. -/
theorem loHiReachOnlyTheMoves : Obligations.LoHiReachOnlyTheMoves := by
  intro s t l h hstep hlo hhi
  obtain ⟨hrun, i, hd, hexec⟩ := step_next hstep
  have hlo : ∀ q, i ≠ .mflo q := fun q hq => hlo q (hq ▸ hd)
  have hhi : ∀ q, i ≠ .mfhi q := fun q hq => hhi q (hq ▸ hd)
  exact (step_of_decode (s := withLoHi s l h) hrun hd).trans (exec_withLoHi hlo hhi hexec l h)

/-! ### The data path -/

/-- The word of NOP is that of its fields, all 0 (46_pseudo.md R181). -/
theorem encode_nop : encode .nop = pack 0#5 0#4 0#4 0#4 0#8 := by decide

/-- The unit that the listed signals select computes what the instruction writes (10_state.md R45). -/
theorem dataPathResult_eq_written {i : Instr} {rw : RegNum} (hk : i.kind = .writer rw) (hlo : ∀ q, i ≠ .mflo q)
    (hhi : ∀ q, i ≠ .mfhi q) (s : State) : dataPathResult i (encode i) s = some (written i s) := by
  cases i with
  | mflo q => exact absurd rfl (hlo q)
  | mfhi q => exact absurd rfl (hhi q)
  | brz | bro | ld | st | halt | br => cases hk
  | nop => simp [dataPathResult, signals, Signals.unitResult, Signals.bInput, encode_nop, written]
  | _ =>
    simp [dataPathResult, signals, Signals.unitResult, Signals.bInput, encode, written, notResult, addResult, subResult]

/-- C1_LoadPC is the condition of a branch (42_branch.md). -/
theorem loadPC_eq_taken {i : Instr} (hk : i.kind = .branch) (s : State) :
    (signals (bitZero (s.readReg (rbOf (encode i)))) i).loadPC = taken i s := by
  cases i with
  | brz | bro => simp [signals, encode, taken]
  | br dest =>
    have hbit : bitZero 0#8 = false := by decide
    simp [signals, encode, taken, hbit]
  | _ => cases hk

/-- Settles O55: what the data path computes is what `writeBack` writes, and C1_LoadPC is the condition `branchTo` is given. -/
theorem dataPathComputesTheResult : Obligations.DataPathComputesTheResult := by
  refine ⟨fun i rw s hk hlo hhi => ⟨_, dataPathResult_eq_written hk hlo hhi s, fun t ht => ?_⟩, fun i s t hk ht => ?_⟩
  · rw [exec_eq_writeBack hk] at ht
    obtain ⟨n, -, rfl⟩ := writeBack_next ht
    exact writesOnly_writeBack rw _ s n
  · rw [exec_eq_branchTo hk] at ht
    obtain ⟨-, -, rfl⟩ := branchTo_next ht
    rw [loadPC_eq_taken hk, setSlot_slot]
    cases taken i s <;> simp

end Sys2Proof.Safety
